-- ==== Sys2Proof/Word.lean ====
section
/-! DEFINITION. The byte and the 8-byte vector, the only data words of the engine (00_scope.md R6). -/

namespace Sys2Proof

/-- A byte is 8 bits (R6). -/
abbrev Byte := BitVec 8

/-- `Bytes8` of R6: a byte vector of length 8, byte 0 first. A block, a control word and the chaining
register are of this type. It is never read as a multi-byte integer (20_memory.md R32). -/
structure Bytes8 where
  b0 : Byte
  b1 : Byte
  b2 : Byte
  b3 : Byte
  b4 : Byte
  b5 : Byte
  b6 : Byte
  b7 : Byte
  deriving DecidableEq, Repr, Inhabited

/-- `0^8` of R6: the block of eight zero bytes. -/
def Bytes8.zero : Bytes8 := ⟨0, 0, 0, 0, 0, 0, 0, 0⟩

end Sys2Proof
end

