-- ==== Sys2Proof/Machine/Bytes.lean ====
section
/-! DEFINITION. Bytewise operations on byte vectors (00_scope.md R6, 44_engine_commands.md R107) and the
two ways between a `Bytes8` and a list of bytes in address order (20_memory.md R32). -/

namespace Sys2Proof

/-- Bytewise application of a function of one byte. -/
def Bytes8.map (f : Byte → Byte) (a : Bytes8) : Bytes8 :=
  ⟨f a.b0, f a.b1, f a.b2, f a.b3, f a.b4, f a.b5, f a.b6, f a.b7⟩

/-- Bytewise application of a function of two bytes. -/
def Bytes8.zipWith (f : Byte → Byte → Byte) (a b : Bytes8) : Bytes8 :=
  ⟨f a.b0 b.b0, f a.b1 b.b1, f a.b2 b.b2, f a.b3 b.b3,
   f a.b4 b.b4, f a.b5 b.b5, f a.b6 b.b6, f a.b7 b.b7⟩

/-- `A XOR B` (R6). -/
def Bytes8.xor (a b : Bytes8) : Bytes8 := Bytes8.zipWith (· ^^^ ·) a b

/-- `A AND B` (R6). -/
def Bytes8.and (a b : Bytes8) : Bytes8 := Bytes8.zipWith (· &&& ·) a b

/-- `A OR B` (R6). -/
def Bytes8.or (a b : Bytes8) : Bytes8 := Bytes8.zipWith (· ||| ·) a b

/-- `NOT A` (R6). -/
def Bytes8.not (a : Bytes8) : Bytes8 := Bytes8.map (~~~ ·) a

/-- The eight bytes in address order, byte 0 first (R32). -/
def Bytes8.toList (a : Bytes8) : List Byte := [a.b0, a.b1, a.b2, a.b3, a.b4, a.b5, a.b6, a.b7]

/-- The vector of exactly eight bytes in address order; any other length is no `Bytes8`. -/
def Bytes8.ofList? : List Byte → Option Bytes8
  | [b0, b1, b2, b3, b4, b5, b6, b7] => some ⟨b0, b1, b2, b3, b4, b5, b6, b7⟩
  | _ => none

/-- `A XOR B` on two byte vectors; where the lengths differ, on the shorter one's length, which is how the
residue takes only the leading bytes of the seed (43_chaining_stream.md R95). -/
def xorBytes (a b : List Byte) : List Byte := List.zipWith (· ^^^ ·) a b

end Sys2Proof
end

