-- ==== Sys2Proof/Config.lean ====
section
/-! DEFINITION. What the hardware fixes and the spec leaves OPEN (00_scope.md R5): the cipher's parameters
as one opaque tuple that meets the laws the spec lists, the two widths, and the free value of the
chaining register. Nothing here can be evaluated, so what is proved holds for every such tuple. -/

namespace Sys2Proof

/-- The OPEN parameters of R5 (92_eei_decisions.md D16). Every function of the model that uses them takes
them as an argument, so what it says holds for every choice, and it can also be evaluated under the
spec's `TESTINST`. -/
structure Cipher where
  /-- `KS` (41_key_schedule.md R76): the type of a key schedule, opaque round-key material. The model knows no
  layout, no size and no operation of it but `BlockEnc` and `BlockDec`. Log entry 2. -/
  KS : Type
  /-- `Expand` (R75). -/
  expand : Bytes8 → KS
  /-- `ER_MASK` (R71). -/
  erMask : Bytes8
  /-- `ER_VAL` (R71). -/
  erVal : Bytes8
  /-- `BlockEnc` (R80). -/
  blockEnc : KS → Bytes8 → Bytes8
  /-- `BlockDec` (R80). -/
  blockDec : KS → Bytes8 → Bytes8

/-- The laws a model may assume of the parameters, and no others: `KS` is of one fixed size, whatever the
control word (R76: one type with finitely many values), the well-formed mask (R71), and the inverse laws for
schedules in the range of `Expand` (R81). -/
structure Cipher.Lawful (c : Cipher) : Prop where
  fixed_size : Finite c.KS
  erVal_in_mask : c.erVal.and c.erMask.not = Bytes8.zero
  dec_enc : ∀ k b, c.blockDec (c.expand k) (c.blockEnc (c.expand k) b) = b
  enc_dec : ∀ k b, c.blockEnc (c.expand k) (c.blockDec (c.expand k) b) = b

/-- Cipher parameters whose `KS`, being of fixed size, is plain data: its values can be told apart and written
out, so that a state that holds one can. Which values these are stays open. Log entry 2. -/
class PlainCipher extends Cipher, FinEnum KS, Repr KS

/-- A tuple that meets the laws. The default fields only show Lean that one exists, so that the constant
below may be declared; they say nothing of that constant. -/
structure LawfulCipher where
  plain : PlainCipher :=
    { (inferInstance : FinEnum Unit), (inferInstance : Repr Unit) with
      KS := Unit, expand := fun _ => (), erMask := .zero, erVal := .zero, blockEnc := fun _ b => b
      blockDec := fun _ b => b }
  lawful : plain.toCipher.Lawful := by exact ⟨inferInstanceAs (Finite Unit), rfl, fun _ _ => rfl, fun _ _ => rfl⟩
  deriving Inhabited

/-- The cipher of the hardware, which the spec withholds (42_block_transform.md R82, 40_entropy_reducer.md R72):
no body, so no proof can see which lawful tuple it is. Log entry 1. -/
opaque Config.lawfulCipher : LawfulCipher

/-- The hardware's cipher parameters. -/
abbrev Config.cipher : Cipher := Config.lawfulCipher.plain.toCipher

/-- The hardware's `KS` (R76): an opaque type. Log entry 2. -/
abbrev Config.KS : Type := Config.cipher.KS

/-- The free value of `chain` where the spec leaves it unspecified (10_state.md R14, 93 U1), applied to
the counter `State.fresh`. Log entry 4. -/
opaque Config.freeChain : Nat → Bytes8

/-- `ABITS` (R5, decided 32): the width of a host-memory address. Log entry 14. -/
def Config.abits : Nat := 32

/-- `LENBITS` (R5, decided 32): the width of a span's length. Log entry 14. -/
def Config.lenbits : Nat := 32

end Sys2Proof
end

