-- ==== Sys2Proof/Syntax.lean ====
section
/-! DEFINITION. The five commands and their operands (30_encoding.md R64, R55). -/

namespace Sys2Proof

/-- The parity operand (R53). -/
inductive Parity where
  | even
  | odd
  deriving DecidableEq, Repr

/-- The entropy-mode operand (R54, 10_state.md R18). -/
inductive Mode where
  | normal
  | reduced
  deriving DecidableEq, Repr

/-- A span `(BASE, LEN)` of host memory (20_memory.md R31): an address and a count of bytes. That both fit
their fields is checked in WellFormed. -/
structure Span where
  base : Nat
  len : Nat
  deriving DecidableEq, Repr

/-- One constructor per row of spec/opcode_table.json. -/
inductive Instr where
  /-- `INIT mode, base, len` (44_engine_commands.md R101). -/
  | init (mode : Mode) (sp : Span)
  /-- `INITP par, mode, base, len` (R102). -/
  | initp (par : Parity) (mode : Mode) (sp : Span)
  /-- `ENC par, base, len` (R103). -/
  | enc (par : Parity) (sp : Span)
  /-- `DEC par, base, len` (R104). -/
  | dec (par : Parity) (sp : Span)
  /-- `QRY par` (R105). -/
  | qry (par : Parity)
  deriving DecidableEq, Repr

end Sys2Proof
end

