-- ==== Sys2Proof/Machine/KeySchedule.lean ====
section
/-! DEFINITION. The EntropyReducer (40_entropy_reducer.md) and the installation value of the KeySchedule
(41_key_schedule.md), over any cipher parameters. -/

namespace Sys2Proof.Machine

/-- `Reduce(k)[i] = (k[i] AND NOT ER_MASK[i]) OR ER_VAL[i]` (R71). -/
def reduce (c : Cipher) (k : Bytes8) : Bytes8 := (k.and c.erMask.not).or c.erVal

/-- `Install(m, k)` (R78): `Expand(k)` in mode NORMAL, `Expand(Reduce(k))` in mode REDUCED. -/
def install (c : Cipher) (m : Mode) (k : Bytes8) : c.KS :=
  match m with
  | .normal => c.expand k
  | .reduced => c.expand (reduce c k)

end Sys2Proof.Machine
end

