-- ==== Sys2Proof/WellFormed.lean ====
section
/-! DEFINITION. Which commands the binary level can spell: those whose `BASE` and `LEN` fit their fields
(30_encoding.md R52, R57; 20_memory.md R31). -/

namespace Sys2Proof

/-- `BASE` has `ABITS` bits and `LEN` has `LENBITS` bits (R31). -/
abbrev Span.WellFormed (sp : Span) : Prop :=
  sp.base < 2 ^ Config.abits ∧ sp.len < 2 ^ Config.lenbits

/-- Every command with a span has a well-formed one; `QRY` has no span (R64). -/
def Instr.wf : Instr → Bool
  | .init _ sp => decide sp.WellFormed
  | .initp _ _ sp => decide sp.WellFormed
  | .enc _ sp => decide sp.WellFormed
  | .dec _ sp => decide sp.WellFormed
  | .qry _ => true

/-- The check as a proposition. -/
abbrev Instr.WellFormed (i : Instr) : Prop := i.wf = true

end Sys2Proof
end

