-- ==== Sys2Proof/Decode.lean ====
section
/-! DEFINITION. The `D96` descriptor: fields, the decoder of 30_encoding.md R57, which names why it rejects,
the encoder, the opcode table of R56, and the 12-byte serialisation of 20_memory.md R33. -/

namespace Sys2Proof

/-- A descriptor: one 96-bit value delivered to the command port (R50, R33). -/
abbrev Descriptor := BitVec 96

/-- `D[hi:lo]` (R6), as an unsigned number. -/
def descBits (d : Descriptor) (hi lo : Nat) : Nat := d.toNat / 2 ^ lo % 2 ^ (hi + 1 - lo)

/-- `OPC` = `D[7:0]` (R51). -/
def descOpc (d : Descriptor) : Nat := descBits d 7 0
/-- `PAR` = `D[8]` (R51). -/
def descPar (d : Descriptor) : Nat := descBits d 8 8
/-- `MODE` = `D[9]` (R51). -/
def descMode (d : Descriptor) : Nat := descBits d 9 9
/-- `RSV0` = `D[31:10]` (R51). -/
def descRsv0 (d : Descriptor) : Nat := descBits d 31 10
/-- `BASE` = `D[63:32]` (R52). -/
def descBase (d : Descriptor) : Nat := descBits d 63 32
/-- `LEN` = `D[95:64]` (R52). -/
def descLen (d : Descriptor) : Nat := descBits d 95 64

/-- `PAR = 0` is `EVEN`, `PAR = 1` is `ODD` (R53). -/
def parityOfBit (n : Nat) : Parity := if n = 0 then .even else .odd
/-- `MODE = 0` is `NORMAL`, `MODE = 1` is `REDUCED` (R54). -/
def modeOfBit (n : Nat) : Mode := if n = 0 then .normal else .reduced
/-- The `PAR` bit of a parity (R53). -/
def parityBit : Parity → Nat
  | .even => 0
  | .odd => 1
/-- The `MODE` bit of a mode (R54). -/
def modeBit : Mode → Nat
  | .normal => 0
  | .reduced => 1

/-- Why a descriptor is `Illegal` (R58, 93 U9). The engine answers all of them alike; the name is the model's. -/
inductive Illegal where
  /-- `RSV0` is not zero. -/
  | reservedBits
  /-- `OPC` is 0x00 or 0x06 to 0xFF. -/
  | reservedOpcode
  /-- `PAR` is not zero in `INIT`. -/
  | unusedPar
  /-- `MODE` is not zero in `ENC`, `DEC` or `QRY`. -/
  | unusedMode
  /-- `BASE` or `LEN` is not zero in `QRY`. -/
  | unusedSpan
  deriving DecidableEq, Repr

/-- The decoder of R57, total on 96-bit values; it reads no state and no memory. -/
def decode (d : Descriptor) : Except Illegal Instr :=
  let par := parityOfBit (descPar d)
  let mode := modeOfBit (descMode d)
  let sp : Span := ⟨descBase d, descLen d⟩
  if descRsv0 d ≠ 0 then .error .reservedBits
  else if descOpc d = 0x01 then
    if descPar d = 0 then .ok (.init mode sp) else .error .unusedPar
  else if descOpc d = 0x02 then .ok (.initp par mode sp)
  else if descOpc d = 0x03 then
    if descMode d = 0 then .ok (.enc par sp) else .error .unusedMode
  else if descOpc d = 0x04 then
    if descMode d = 0 then .ok (.dec par sp) else .error .unusedMode
  else if descOpc d = 0x05 then
    if descMode d ≠ 0 then .error .unusedMode
    else if sp.base = 0 ∧ sp.len = 0 then .ok (.qry par)
    else .error .unusedSpan
  else .error .reservedOpcode

/-- `W0` from its fields, `RSV0` zero (R51). -/
def word0 (opc par mode : Nat) : Nat := opc + 2 ^ 8 * par + 2 ^ 9 * mode

/-- `D = W2 * 2^64 + W1 * 2^32 + W0` (R50). -/
def descOfWords (w2 w1 w0 : Nat) : Descriptor := BitVec.ofNat 96 (w2 * 2 ^ 64 + w1 * 2 ^ 32 + w0)

/-- `encode` of R57: the one descriptor of a well-formed command, all unused fields zero (R55, R56). -/
def encode : Instr → Descriptor
  | .init mode sp => descOfWords sp.len sp.base (word0 0x01 0 (modeBit mode))
  | .initp par mode sp => descOfWords sp.len sp.base (word0 0x02 (parityBit par) (modeBit mode))
  | .enc par sp => descOfWords sp.len sp.base (word0 0x03 (parityBit par) 0)
  | .dec par sp => descOfWords sp.len sp.base (word0 0x04 (parityBit par) 0)
  | .qry par => descOfWords 0 0 (word0 0x05 (parityBit par) 0)

/-- A row of the opcode table: a descriptor spells the row's command exactly when `D AND mask = match` (R56). -/
structure OpcodeRow where
  pattern : Descriptor
  mask : Descriptor
  deriving DecidableEq, Repr

/-- The row of R56 (and of spec/opcode_table.json) a command stands in. -/
def opcodeRow : Instr → OpcodeRow
  | .init _ _ => ⟨0x000000000000000000000001#96, 0x0000000000000000FFFFFDFF#96⟩
  | .initp _ _ _ => ⟨0x000000000000000000000002#96, 0x0000000000000000FFFFFCFF#96⟩
  | .enc _ _ => ⟨0x000000000000000000000003#96, 0x0000000000000000FFFFFEFF#96⟩
  | .dec _ _ => ⟨0x000000000000000000000004#96, 0x0000000000000000FFFFFEFF#96⟩
  | .qry _ => ⟨0x000000000000000000000005#96, 0xFFFFFFFFFFFFFFFFFFFFFEFF#96⟩

/-- `D AND mask = match` (R56). -/
def OpcodeRow.spells (r : OpcodeRow) (d : Descriptor) : Bool := d &&& r.mask == r.pattern

/-- The five rows of R56 in the table's order. -/
def opcodeRows : List OpcodeRow :=
  [opcodeRow (.init .normal ⟨0, 0⟩), opcodeRow (.initp .even .normal ⟨0, 0⟩), opcodeRow (.enc .even ⟨0, 0⟩),
   opcodeRow (.dec .even ⟨0, 0⟩), opcodeRow (.qry .even)]

/-- `n` bytes of a number, least significant byte first (R33). -/
def bytesOfNat : Nat → Nat → List Byte
  | 0, _ => []
  | n + 1, x => BitVec.ofNat 8 x :: bytesOfNat n (x / 256)

/-- The number whose bytes, least significant first, are given (R33). -/
def natOfBytes : List Byte → Nat
  | [] => 0
  | b :: bs => b.toNat + 256 * natOfBytes bs

/-- A descriptor as 12 bytes: `W0`, `W1`, `W2`, each least significant byte first (R33). -/
def descToBytes (d : Descriptor) : List Byte :=
  bytesOfNat 4 (descBits d 31 0) ++ bytesOfNat 4 (descBits d 63 32) ++ bytesOfNat 4 (descBits d 95 64)

/-- The descriptor the first 12 bytes serialise, with the rest of the list (R33); fewer bytes are none. -/
def descOfBytes (bs : List Byte) : Option (Descriptor × List Byte) :=
  if bs.length < 12 then none
  else some (descOfWords (natOfBytes ((bs.drop 8).take 4)) (natOfBytes ((bs.drop 4).take 4))
    (natOfBytes (bs.take 4)), bs.drop 12)

/-- A response word as 4 bytes, least significant byte first (R33). -/
def responseToBytes (w : BitVec 32) : List Byte := bytesOfNat 4 w.toNat

/-- The descriptor whose bits are `w`, numbered as spec/opcode_table.json numbers them (bit 0 the least
significant of `W0`), with every bit above `nbits` zero. Log entry 9. -/
def tableDescriptor (nbits w : Nat) : Descriptor := BitVec.ofNat 96 (w % 2 ^ nbits)

/-- What the decoder reads from that descriptor. -/
def decodeTableWord (nbits w : Nat) : Option Instr :=
  match decode (tableDescriptor nbits w) with
  | .ok i => some i
  | .error _ => none

end Sys2Proof
end

