-- ==== Sys2Proof/Machine/State.lean ====
section
/-! DEFINITION. The state as plain data (10_state.md R10): the two key slots, the chaining register, host
memory, the command port with the host's events, and the host-side record of the run. -/

namespace Sys2Proof.Machine

/-- What an installed parity holds: `ks[p]` (R12) and `cw[p]`, the control word as supplied (R13). A slot
that was never installed holds no value (R24), so it is absent. `K` is the type of schedules (R76). Log entry 3. -/
structure Slot (K : Type) where
  ks : K
  cw : Bytes8
  deriving DecidableEq, Repr

/-- Host memory `HM` (20_memory.md R30): the addresses the host has placed a byte at, in rising order. -/
abbrev Memory := List Host.Cell

/-- What the host may do next (70_reset_and_hazards.md R150); each lands between commands (R143, R144). -/
inductive HostEvent where
  /-- Present a descriptor at the command port (30_encoding.md R50). -/
  | descriptor (d : Descriptor)
  /-- Store bytes to `HM` from an address on (20_memory.md R40 b, 30_encoding.md R62 `.bytes`). -/
  | store (addr : Nat) (bytes : List Byte)
  /-- Reset the engine (R140). -/
  | reset
  deriving DecidableEq, Repr

/-- The state of one engine with the host memory and the port it is attached to, over the type `K` of key
schedules, an open parameter (00_scope.md R5). `State` alone is the hardware's: `K` is then its opaque `KS`. -/
structure State (K : Type := Config.KS) where
  /-- Slot EVEN: present when `ready[EVEN] = 1` (R11, R24). -/
  even : Option (Slot K)
  /-- Slot ODD: present when `ready[ODD] = 1` (R11, R24). -/
  odd : Option (Slot K)
  /-- The chaining register (R14). -/
  chain : Bytes8
  /-- Host memory `HM` (20_memory.md R30). -/
  mem : Memory
  /-- What the host will do, oldest first; nothing else wakes the engine (60_exceptions.md R131). Log entry 7. -/
  port : List HostEvent
  /-- Host side: how many commands have been answered since reset, which is the index of the next (R16). -/
  cmdidx : Nat
  /-- Host side: the responses in issue order (R20). -/
  resp : List (BitVec 32)
  /-- The MODEL's own counter, not the spec's: what the free value of `chain` is applied to. Log entry 4. -/
  fresh : Nat
  deriving DecidableEq, Repr

/-- The three failures (60_exceptions.md R121 to R123). Each is a response and the engine goes on (R120). -/
inductive Failure where
  /-- `InvalidKeyLength` (R121): raised by `INIT`, `INITP`. -/
  | invalidKeyLength
  /-- `EngineNotInitialized` (R122): raised by `ENC`, `DEC`. -/
  | engineNotInitialized
  /-- `IllegalCommand` (R123): raised by a descriptor that decodes to no command. -/
  | illegalCommand
  deriving DecidableEq, Repr

/-- What stops the machine with a fault: nothing. The spec's failures are responses after which the engine
takes the next command (R120, R124), and no other event stops it (R131). No one raises it. -/
inductive Fault
  deriving DecidableEq, Repr

/-- Runs the model gives no meaning. -/
inductive Refusal where
  /-- Raised by `exec` alone, for an instruction without a meaning yet; safe. -/
  | notModelled (mnemonic : String)
  /-- Raised by `INIT`, `INITP`, `ENC` and `DEC` when, after validation, the span has an address the host has
  placed no byte at: the spec gives such a command no meaning and asks a model to refuse it (20_memory.md
  R38, 93 U7). Safe. Log entry 6. -/
  | spanNotOwned
  deriving DecidableEq, Repr

/-- The state after reset (R23, 70_reset_and_hazards.md R141): both parities UNINITIALIZED, no key value,
`chain` unspecified (here `0^8`, log entry 5), nothing listed in `HM`, no host event waiting, `cmdidx` 0. -/
def State.reset : State where
  even := none
  odd := none
  chain := Bytes8.zero
  mem := []
  port := []
  cmdidx := 0
  resp := []
  fresh := 0

end Sys2Proof.Machine
end

