-- ==== Sys2Proof/Machine/Flags.lean ====
section
/-! DEFINITION. The engine's only status flags, `ready[p]` (10_state.md R11, R17), and the response word a
command answers with (30_encoding.md R60, R61). -/

namespace Sys2Proof.Machine

variable {K : Type}

/-- The slot of a parity (10_state.md R10). -/
def State.slot (s : State K) : Parity → Option (Slot K)
  | .even => s.even
  | .odd => s.odd

/-- `ready[p]`: 1 exactly when the slot is installed (R11, R24). -/
def State.ready (s : State K) (p : Parity) : Bool := (s.slot p).isSome

/-- `ks[p]` (R12); no value while `ready[p] = 0` (R24). -/
def State.ks (s : State K) (p : Parity) : Option K := (s.slot p).map Slot.ks

/-- `cw[p]` (R13); no value while `ready[p] = 0` (R24). -/
def State.cw (s : State K) (p : Parity) : Option Bytes8 := (s.slot p).map Slot.cw

/-- The status code of a failure (R61): 0x1, 0x2, 0xF. -/
def Failure.code : Failure → BitVec 4
  | .invalidKeyLength => 0x1
  | .engineNotInitialized => 0x2
  | .illegalCommand => 0xF

/-- Status `OK` (R61). -/
def statusOk : BitVec 4 := 0x0

/-- The response word (R60): `ST` in bits 3:0, `RDY` in bit 8, every other bit zero. -/
def responseWord (st : BitVec 4) (rdy : Bool) : BitVec 32 :=
  (0 : BitVec 23) ++ BitVec.ofBool rdy ++ (0 : BitVec 4) ++ st

end Sys2Proof.Machine
end

