-- ==== Sys2Proof/Machine/Ops.lean ====
section
/-! DEFINITION. The named operations over memory, slots and the chaining register, delivering a response, and
raising a failure, which is how this engine takes an exception (00_scope.md R7, 60_exceptions.md R120). -/

namespace Sys2Proof.Machine

variable {K : Type}

/-- What step answers. -/
abbrev Result (K : Type := Config.KS) := Host.Outcome (State K) Fault Refusal

/-- The byte at an address; none where the host has placed no byte (20_memory.md R38). Log entry 6. -/
def Memory.read : Memory → Nat → Option Byte
  | [], _ => none
  | (x, v) :: m, a => if a = x then some v else Memory.read m a

/-- Put a byte at an address, keeping the addresses in rising order. -/
def Memory.write : Memory → Nat → Byte → Memory
  | [], a, v => [(a, v)]
  | (x, w) :: m, a, v =>
    if a < x then (a, v) :: (x, w) :: m
    else if a = x then (a, v) :: m
    else (x, w) :: Memory.write m a v

/-- The canonical form: addresses strictly rising and inside the `ABITS`-bit space (R30). -/
abbrev Memory.wf (m : Memory) : Prop :=
  m.Pairwise (fun c d => c.1 < d.1) ∧ ∀ c ∈ m, c.1 < 2 ^ Config.abits

/-- Write a slot as a whole: `ready[p]`, `ks[p]` and `cw[p]` together (10_state.md R12, R13). -/
def State.setSlot (s : State K) (p : Parity) (v : Slot K) : State K :=
  match p with
  | .even => { s with even := some v }
  | .odd => { s with odd := some v }

/-- Replace host memory. -/
def State.setMem (s : State K) (m : Memory) : State K := { s with mem := m }

/-- `chain <- 0^8` at the start of every `ENC` and `DEC` that passes validation (R14, 43_chaining_stream.md R91). -/
def State.loadChain (s : State K) : State K := { s with chain := Bytes8.zero }

/-- `chain` is unspecified from here on (R14, 93 U1): it takes a free value. Log entry 4. -/
def State.freeChain (s : State K) : State K :=
  { s with chain := Config.freeChain s.fresh, fresh := s.fresh + 1 }

/-- `respond(st, rdy)` of R7: end the command and deliver the response word; the host appends it to `resp`
(10_state.md R20) and `cmdidx` advances by exactly 1 (R16). -/
def State.respond (s : State K) (st : BitVec 4) (rdy : Bool) : State K :=
  { s with resp := s.resp ++ [responseWord st rdy], cmdidx := s.cmdidx + 1 }

/-- `respond(OK, rdy)`: phase 4 of R100. -/
def State.respondOk (s : State K) (rdy : Bool) : State K := s.respond statusOk rdy

/-- `raise <Failure>` of R7: the response carries the failure's code and `RDY = 0`, and nothing else of the
engine or of memory changes (R120). It is also the whole of what a failure does: there is no handler to
enter and nothing to return from. -/
def raise (f : Failure) (s : State K) : Result K := .next (s.respond f.code false)

end Sys2Proof.Machine
end

