-- ==== Sys2Proof/Machine/Operands.lean ====
section
/-! DEFINITION. The one operand form of the engine, the span `(BASE, LEN)` given whole in the descriptor
(44_engine_commands.md R109): its addresses, `MemRead` and `MemWrite` over it (00_scope.md R7). -/

namespace Sys2Proof.Machine

/-- The address of byte `i` of a span from `base`: `(BASE + i) mod 2^ABITS` (20_memory.md R31). -/
def spanAddr (base i : Nat) : Nat := (base + i) % 2 ^ Config.abits

/-- The address `a` is one of the span's (R31). -/
def spanCovers (sp : Span) (a : Nat) : Prop := ∃ i, i < sp.len ∧ spanAddr sp.base i = a

/-- `MemRead(addr, n)` of R7: the bytes at `addr`, `addr + 1`, …, each address modulo `2^ABITS`; none as soon
as one of them has no byte. -/
def Memory.readSpan (m : Memory) (base : Nat) : Nat → Option (List Byte)
  | 0 => some []
  | n + 1 =>
    match m.read (spanAddr base 0) with
    | none => none
    | some v =>
      match Memory.readSpan m (base + 1) n with
      | none => none
      | some vs => some (v :: vs)

/-- `MemWrite(addr, n, v)` of R7: the bytes to the same addresses, `v[0]` to `addr`. -/
def Memory.writeSpan (m : Memory) (base : Nat) : List Byte → Memory
  | [] => m
  | v :: vs => Memory.writeSpan (m.write (spanAddr base 0) v) (base + 1) vs

/-- The control word in a key span: byte `k` is the byte at `(BASE + k) mod 2^ABITS` (R32). -/
def Memory.readKey (m : Memory) (base : Nat) : Option Bytes8 :=
  match m.readSpan base 8 with
  | none => none
  | some bs => Bytes8.ofList? bs

end Sys2Proof.Machine
end

