-- ==== Sys2Proof/Machine/KeyCommands.lean ====
section
/-! DEFINITION. The key-installation commands `INIT` (44_engine_commands.md R101) and `INITP` (R102). -/

namespace Sys2Proof.Machine

/-- The shape both share (R100): validate `LEN = 8` from the descriptor alone, then read the control word,
then write the slots and answer `OK`. -/
def installKey {K : Type} (sp : Span) (put : Bytes8 → State K → State K) (s : State K) : Result K :=
  if sp.len ≠ 8 then raise .invalidKeyLength s
  else
    match s.mem.readKey sp.base with
    | none => .refused .spanNotOwned
    | some k => .next ((put k s).respondOk false)

/-- What installing `k` in a slot writes there: `ks <- Install(mode, k)`, `cw <- k`, `ready <- 1` (R102). -/
def slotFor (c : Cipher) (mode : Mode) (k : Bytes8) : Slot c.KS := ⟨install c mode k, k⟩

/-- `INIT mode, base, len` under cipher parameters `c` (R101): both slots in one transition. -/
def execInitWith (c : Cipher) (mode : Mode) (sp : Span) (s : State c.KS) : Result c.KS :=
  installKey sp (fun k t => (t.setSlot .even (slotFor c mode k)).setSlot .odd (slotFor c mode k)) s

/-- `INITP par, mode, base, len` under cipher parameters `c` (R102): slot `par` alone. -/
def execInitpWith (c : Cipher) (par : Parity) (mode : Mode) (sp : Span) (s : State c.KS) : Result c.KS :=
  installKey sp (fun k t => t.setSlot par (slotFor c mode k)) s

/-- `INIT` of the hardware's cipher (R101). -/
def execInit (mode : Mode) (sp : Span) (s : State) : Result := execInitWith Config.cipher mode sp s

/-- `INITP` of the hardware's cipher (R102). -/
def execInitp (par : Parity) (mode : Mode) (sp : Span) (s : State) : Result :=
  execInitpWith Config.cipher par mode sp s

end Sys2Proof.Machine
end

