-- ==== Sys2Proof/Machine/QueryCommands.lean ====
section
/-! DEFINITION. The query command `QRY` (44_engine_commands.md R105). -/

namespace Sys2Proof.Machine

/-- `QRY par`: `respond(OK, ready[par])`; no state and no memory is written (R105). -/
def execQry (par : Parity) (s : State) : Result := .next (s.respondOk (s.ready par))

end Sys2Proof.Machine
end

