-- ==== Sys2Proof/Machine/ChainingStream.lean ====
section
/-! DEFINITION. The ChainingStream and its residue handler (43_chaining_stream.md R90 to R96), over any
cipher parameters: `ChainEnc` and `ChainDec` as functions on byte vectors. -/

namespace Sys2Proof.Machine

/-- R90: the full blocks of a payload, in order, and the residue of fewer than 8 bytes. -/
def splitPayload : List Byte → List Bytes8 × List Byte
  | b0 :: b1 :: b2 :: b3 :: b4 :: b5 :: b6 :: b7 :: rest =>
    (⟨b0, b1, b2, b3, b4, b5, b6, b7⟩ :: (splitPayload rest).1, (splitPayload rest).2)
  | tail => ([], tail)

/-- The bytes of a list of blocks, in order. -/
def joinBlocks : List Bytes8 → List Byte
  | [] => []
  | b :: bs => b.toList ++ joinBlocks bs

/-- R92: scrambling the full blocks. `X = B_i XOR chain`, `Y = BlockEnc(s, X)`, out `Y`, `chain <- Y`. -/
def encBlocks (c : Cipher) (s : c.KS) : Bytes8 → List Bytes8 → List Bytes8
  | _, [] => []
  | chain, b :: bs => c.blockEnc s (b.xor chain) :: encBlocks c s (c.blockEnc s (b.xor chain)) bs

/-- R93: descrambling the full blocks. `X = BlockDec(s, Y)`, out `X XOR chain`, `chain <- Y`, the input block. -/
def decBlocks (c : Cipher) (s : c.KS) : Bytes8 → List Bytes8 → List Bytes8
  | _, [] => []
  | chain, y :: ys => (c.blockDec s y).xor chain :: decBlocks c s y ys

/-- R94: the keystream seed, from the SCRAMBLED full blocks in either direction: the last of them, or, when
there is none, `BlockEnc(s, chain)` (`BlockEnc` in both directions, 90_conflicts.md C2, C5). -/
def seed (c : Cipher) (s : c.KS) (chain : Bytes8) (scrambled : List Bytes8) : Bytes8 :=
  match scrambled.getLast? with
  | some y => y
  | none => c.blockEnc s chain

/-- R95: the residue XOR the leading bytes of the seed; nothing when the residue is empty (R94 asks for a
seed only when `r > 0`). -/
def residueOut (c : Cipher) (s : c.KS) (chain : Bytes8) (scrambled : List Bytes8) : List Byte → List Byte
  | [] => []
  | b :: bs => xorBytes (b :: bs) (seed c s chain scrambled).toList

/-- `ChainEnc` from the value the chaining register has been loaded with (R96). -/
def chainEncFrom (c : Cipher) (s : c.KS) (chain : Bytes8) (payload : List Byte) : List Byte :=
  joinBlocks (encBlocks c s chain (splitPayload payload).1) ++
    residueOut c s chain (encBlocks c s chain (splitPayload payload).1) (splitPayload payload).2

/-- `ChainDec` from the value the chaining register has been loaded with (R96). -/
def chainDecFrom (c : Cipher) (s : c.KS) (chain : Bytes8) (payload : List Byte) : List Byte :=
  joinBlocks (decBlocks c s chain (splitPayload payload).1) ++
    residueOut c s chain (splitPayload payload).1 (splitPayload payload).2

/-- `ChainEnc(s, B)`: the register is loaded with `0^8` (R91, R96). -/
def chainEnc (c : Cipher) (s : c.KS) (payload : List Byte) : List Byte := chainEncFrom c s .zero payload

/-- `ChainDec(s, B)`: the register is loaded with `0^8` (R91, R96). -/
def chainDec (c : Cipher) (s : c.KS) (payload : List Byte) : List Byte := chainDecFrom c s .zero payload

end Sys2Proof.Machine
end

