-- ==== Sys2Proof/Machine/StreamCommands.lean ====
section
/-! DEFINITION. The scrambling commands `ENC` (44_engine_commands.md R103) and `DEC` (R104). -/

namespace Sys2Proof.Machine

/-- The shape both share (R100): validate `ready[par]` before anything else (so `LEN = 0` does not rescue the
command, 90_conflicts.md C3), read the span, load the chaining register, write the transformed bytes to
the same span, answer `OK`. `f` is the chaining function, given the schedule and the loaded register. The
whole span in one read and one write is what R36 allows; InPlace.lean has the engine's own walk. -/
def transformSpan {K : Type} (f : K → Bytes8 → List Byte → List Byte) (par : Parity) (sp : Span) (s : State K) :
    Result K :=
  match s.slot par with
  | none => raise .engineNotInitialized s
  | some v =>
    match s.mem.readSpan sp.base sp.len with
    | none => .refused .spanNotOwned
    | some payload =>
      .next ((((s.loadChain).setMem
        (s.mem.writeSpan sp.base (f v.ks s.loadChain.chain payload))).freeChain).respondOk false)

/-- `ENC par, base, len` under cipher parameters `c` (R103). -/
def execEncWith (c : Cipher) (par : Parity) (sp : Span) (s : State c.KS) : Result c.KS :=
  transformSpan (chainEncFrom c) par sp s

/-- `DEC par, base, len` under cipher parameters `c` (R104). -/
def execDecWith (c : Cipher) (par : Parity) (sp : Span) (s : State c.KS) : Result c.KS :=
  transformSpan (chainDecFrom c) par sp s

/-- `ENC` of the hardware's cipher (R103). -/
def execEnc (par : Parity) (sp : Span) (s : State) : Result := execEncWith Config.cipher par sp s

/-- `DEC` of the hardware's cipher (R104). -/
def execDec (par : Parity) (sp : Span) (s : State) : Result := execDecWith Config.cipher par sp s

end Sys2Proof.Machine
end

