-- ==== Sys2Proof/Machine/Dispatch.lean ====
section
/-! DEFINITION. One arm per command, each one direct call of its meaning. -/

namespace Sys2Proof.Machine

def exec (i : Instr) (s : State) : Host.Outcome State Fault Refusal :=
  match i with
  | .init mode sp => Sys2Proof.Machine.execInit mode sp s
  | .initp par mode sp => Sys2Proof.Machine.execInitp par mode sp s
  | .enc par sp => Sys2Proof.Machine.execEnc par sp s
  | .dec par sp => Sys2Proof.Machine.execDec par sp s
  | .qry par => Sys2Proof.Machine.execQry par s

end Sys2Proof.Machine
end

