-- ==== Sys2Proof/Machine/HostPort.lean ====
section
/-! DEFINITION. What the host does to the machine between commands (70_reset_and_hazards.md R150): its stores
to `HM`, the reset event, and how the next descriptor comes to the command port. -/

namespace Sys2Proof.Machine

variable {K : Type}

/-- The host stores bytes to `HM` from an address on, each address modulo `2^ABITS`; the addresses are then
ones it has placed bytes at (20_memory.md R30, R40 b). Log entries 6 and 7. -/
def State.hostStore (s : State K) (addr : Nat) (bytes : List Byte) : State K :=
  s.setMem (s.mem.writeSpan addr bytes)

/-- The reset event (R140, R141): both parities UNINITIALIZED, no key value, `chain` unspecified, host memory
not touched, `cmdidx` 0 (10_state.md R23) and with it an empty response list. Log entries 4, 8 and 13. -/
def State.hostReset (s : State K) : State K :=
  { s.freeChain with even := none, odd := none, cmdidx := 0, resp := [] }

/-- The host's next event is taken: it is no longer waiting. -/
def State.setPort (s : State K) (port : List HostEvent) : State K := { s with port := port }

/-- Present the descriptor with the given table bits to the port, ahead of every waiting event. Log entry 9. -/
def State.present (s : State K) (nbits w : Nat) : State K :=
  s.setPort (.descriptor (tableDescriptor nbits w) :: s.port)

end Sys2Proof.Machine
end

