-- ==== Sys2Proof/Machine/Fetch.lean ====
section
/-! DEFINITION. What one event of the host does: a descriptor goes through decode and its command
(44_engine_commands.md R100), a store and a reset act on their own. -/

namespace Sys2Proof.Machine

/-- A descriptor at the port: phase 1 of R100, then the command, or `raise IllegalCommand` (R58, R123). -/
def runDescriptor (d : Descriptor) (s : State) : Result :=
  match decode d with
  | .ok i => exec i s
  | .error _ => raise .illegalCommand s

/-- One event of the host (70_reset_and_hazards.md R150). -/
def runEvent (e : HostEvent) (s : State) : Result :=
  match e with
  | .descriptor d => runDescriptor d s
  | .store addr bytes => .next (s.hostStore addr bytes)
  | .reset => .next s.hostReset

/-- The next event is taken from the port and acted on. With none waiting the engine is idle and keeps its
state (60_exceptions.md R131); there is no halt and no terminal state (70_reset_and_hazards.md R151). Log entry 10. -/
def takeEvent (s : State) : Result :=
  match s.port with
  | [] => .next s
  | e :: rest => runEvent e (s.setPort rest)

end Sys2Proof.Machine
end

