-- ==== Sys2Proof/Machine/Step.lean ====
section
/-! DEFINITION. One step, and how a descriptor is placed so that the next step runs it. -/

namespace Sys2Proof.Machine

/-- One step: the host's next event, a command being one atomic transition (44_engine_commands.md R100). -/
def step (s : State) : Host.Outcome State Fault Refusal := takeEvent s

/-- `s` with the table word's descriptor presented next. Log entries 9 and 10. -/
def State.withFetchWord (s : State) (nbits w : Nat) : State := s.present nbits w

end Sys2Proof.Machine
end

