-- ==== Sys2Proof/Machine/Assembler.lean ====
section
/-! DEFINITION. The assembler's one-line form of a descriptor and its two directives (30_encoding.md R62), read
from characters into the host's events, and a command written back as a line. The points of the text that
R62 leaves open are the model's DESIGN CHOICE, listed in log entry 15. -/

namespace Sys2Proof.Machine

/-- What a line of R62 spells. -/
inductive AsmLine where
  /-- Nothing but spaces and a comment. -/
  | blank
  /-- A command; it stands for the descriptor `encode` gives. -/
  | command (i : Instr)
  /-- `.desc W2, W1, W0`: a descriptor as three words, legal or not. -/
  | desc (d : Descriptor)
  /-- `.bytes addr: b0 b1 …`: data placed in host memory. -/
  | bytes (addr : Nat) (bs : List Byte)
  deriving DecidableEq, Repr

/-- The value of a hexadecimal digit. -/
def hexDigit? (ch : Char) : Option Nat :=
  if 48 ≤ ch.toNat ∧ ch.toNat ≤ 57 then some (ch.toNat - 48)
  else if 65 ≤ ch.toNat ∧ ch.toNat ≤ 70 then some (ch.toNat - 55)
  else if 97 ≤ ch.toNat ∧ ch.toNat ≤ 102 then some (ch.toNat - 87)
  else none

/-- The number a digit string spells, after the digits already read. -/
def digits? (radix : Nat) : Nat → List Char → Option Nat
  | acc, [] => some acc
  | acc, ch :: cs =>
    match hexDigit? ch with
    | none => none
    | some d => if d < radix then digits? radix (acc * radix + d) cs else none

/-- A number, decimal or with `0x` hexadecimal (R62). That any number of digits is taken, leading zeros
among them, and that `0X` is not, is the model's DESIGN CHOICE (log entry 15). -/
def number? : List Char → Option Nat
  | '0' :: 'x' :: ch :: cs => digits? 16 0 (ch :: cs)
  | ch :: cs => digits? 10 0 (ch :: cs)
  | [] => none

/-- A hexadecimal number of any digit count, with or without `0x`; R62 says only that it is hexadecimal, so
both are the model's DESIGN CHOICE (log entry 15). -/
def hexWord? : List Char → Option Nat
  | '0' :: 'x' :: ch :: cs => digits? 16 0 (ch :: cs)
  | ch :: cs => digits? 16 0 (ch :: cs)
  | [] => none

/-- A number below a bound (R62: below `2^32`). -/
def below (bound : Nat) : Option Nat → Option Nat
  | some n => if n < bound then some n else none
  | none => none

/-- End the token read so far. -/
def endToken (cur : List Char) (ts : List (List Char)) : List (List Char) := if cur = [] then ts else cur :: ts

/-- The tokens of a line: words, commas and colons; spaces separate, `;` begins a comment (R62).
That a tab separates too, and where spaces may stand around a comma or colon, is the model's DESIGN CHOICE
(log entry 15). -/
def tokens : List Char → List Char → List (List Char)
  | cur, [] => endToken cur []
  | cur, ch :: cs =>
    if ch = ';' then endToken cur []
    else if ch = ' ' ∨ ch = '\t' then endToken cur (tokens [] cs)
    else if ch = ',' ∨ ch = ':' then endToken cur ([ch] :: tokens [] cs)
    else tokens (cur ++ [ch]) cs

/-- `EVEN` or `ODD` (R62). -/
def parityWord? (t : List Char) : Option Parity :=
  if t = "EVEN".toList then some .even else if t = "ODD".toList then some .odd else none

/-- `NORMAL` or `REDUCED` (R62). -/
def modeWord? (t : List Char) : Option Mode :=
  if t = "NORMAL".toList then some .normal else if t = "REDUCED".toList then some .reduced else none

/-- A span from its two numbers (R62). -/
def spanWords? (base len : List Char) : Option Span :=
  match below (2 ^ Config.abits) (number? base), below (2 ^ Config.lenbits) (number? len) with
  | some b, some l => some ⟨b, l⟩
  | _, _ => none

/-- `<mode>, <base>, <len>`. -/
def initArgs? : List (List Char) → Option Instr
  | [m, [','], b, [','], l] =>
    match modeWord? m, spanWords? b l with
    | some mode, some sp => some (.init mode sp)
    | _, _ => none
  | _ => none

/-- `<par>, <mode>, <base>, <len>`. -/
def initpArgs? : List (List Char) → Option Instr
  | [p, [','], m, [','], b, [','], l] =>
    match parityWord? p, modeWord? m, spanWords? b l with
    | some par, some mode, some sp => some (.initp par mode sp)
    | _, _, _ => none
  | _ => none

/-- `<par>, <base>, <len>`. -/
def spanArgs? (mk : Parity → Span → Instr) : List (List Char) → Option Instr
  | [p, [','], b, [','], l] =>
    match parityWord? p, spanWords? b l with
    | some par, some sp => some (mk par sp)
    | _, _ => none
  | _ => none

/-- `<par>`. -/
def qryArgs? : List (List Char) → Option Instr
  | [p] =>
    match parityWord? p with
    | some par => some (.qry par)
    | none => none
  | _ => none

/-- `<W2>, <W1>, <W0>`, each a hexadecimal word (R62). R62 writes an illegal descriptor so; that a legal one
may be written so too, and a word with any number of digits as long as it is below `2^32`, is the model's
DESIGN CHOICE (log entry 15). -/
def descArgs? : List (List Char) → Option Descriptor
  | [w2, [','], w1, [','], w0] =>
    match below (2 ^ 32) (hexWord? w2), below (2 ^ 32) (hexWord? w1), below (2 ^ 32) (hexWord? w0) with
    | some a, some b, some c => some (descOfWords a b c)
    | _, _, _ => none
  | _ => none

/-- `<b0> <b1> …`, each a hexadecimal byte (R62). R62 does not say how many digits a byte has, whether it may
carry `0x`, or whether the list may be empty: that any digit count and `0x` are taken for a value below 256,
and a list of no bytes, is the model's DESIGN CHOICE (log entry 15). -/
def byteArgs? : List (List Char) → Option (List Byte)
  | [] => some []
  | t :: ts =>
    match below 256 (hexWord? t), byteArgs? ts with
    | some b, some bs => some (BitVec.ofNat 8 b :: bs)
    | _, _ => none

/-- `<addr>: <b0> <b1> …` (R62). R62 gives the number form, decimal or `0x`, for `<base>` and `<len>` only: that
`<addr>` has the same form and the same bound `2^32` is the model's DESIGN CHOICE (log entry 15). -/
def bytesArgs? : List (List Char) → Option AsmLine
  | a :: [':'] :: ts =>
    match below (2 ^ Config.abits) (number? a), byteArgs? ts with
    | some addr, some bs => some (.bytes addr bs)
    | _, _ => none
  | _ => none

/-- One line (R62). That a line of nothing but spaces and a comment is allowed, and that any other form spells
nothing, is the model's DESIGN CHOICE (log entry 15). -/
def parseTokens : List (List Char) → Option AsmLine
  | [] => some .blank
  | op :: args =>
    if op = "INIT".toList then (initArgs? args).map .command
    else if op = "INITP".toList then (initpArgs? args).map .command
    else if op = "ENC".toList then (spanArgs? .enc args).map .command
    else if op = "DEC".toList then (spanArgs? .dec args).map .command
    else if op = "QRY".toList then (qryArgs? args).map .command
    else if op = ".desc".toList then (descArgs? args).map .desc
    else if op = ".bytes".toList then bytesArgs? args
    else none

/-- One line of text (R62). -/
def parseLine (line : List Char) : Option AsmLine := parseTokens (tokens [] line)

/-- What the host does for a line: a command is issued as the descriptor `encode` gives for it (R62). That a
`.bytes` line is a host store at its place among the commands, and not part of the initial memory when it
stands after one, is the model's DESIGN CHOICE: R62 says only that the data is placed in host memory, and the
spec's programs have such lines only before the first command (log entry 15). -/
def AsmLine.events : AsmLine → List HostEvent
  | .blank => []
  | .command i => [.descriptor (encode i)]
  | .desc d => [.descriptor d]
  | .bytes addr bs => [.store addr bs]

/-- The host's events for a listing, in the order of its lines, `.bytes` lines among them (DESIGN CHOICE, log
entry 15); none where a line has no form of R62. -/
def assemble : List (List Char) → Option (List HostEvent)
  | [] => some []
  | l :: ls =>
    match parseLine l, assemble ls with
    | some line, some es => some (line.events ++ es)
    | _, _ => none

/-- The digit of a value below 16. -/
def hexChar (n : Nat) : Char := if n < 10 then Char.ofNat (48 + n) else Char.ofNat (55 + n)

/-- `n` hexadecimal digits of a number. -/
def hexDigits : Nat → Nat → List Char
  | 0, _ => []
  | n + 1, x => hexDigits n (x / 16) ++ [hexChar (x % 16)]

/-- A 32-bit number with `0x` and eight digits. -/
def numberText (x : Nat) : List Char := '0' :: 'x' :: hexDigits 8 x

/-- `<par>` as text. -/
def parityText : Parity → List Char
  | .even => "EVEN".toList
  | .odd => "ODD".toList

/-- `<mode>` as text. -/
def modeText : Mode → List Char
  | .normal => "NORMAL".toList
  | .reduced => "REDUCED".toList

/-- `, <base>, <len>` as text. -/
def spanText (sp : Span) : List Char := ", ".toList ++ numberText sp.base ++ ", ".toList ++ numberText sp.len

/-- The line of a command (R62). -/
def asmText : Instr → List Char
  | .init mode sp => "INIT ".toList ++ modeText mode ++ spanText sp
  | .initp par mode sp => "INITP ".toList ++ parityText par ++ ", ".toList ++ modeText mode ++ spanText sp
  | .enc par sp => "ENC ".toList ++ parityText par ++ spanText sp
  | .dec par sp => "DEC ".toList ++ parityText par ++ spanText sp
  | .qry par => "QRY ".toList ++ parityText par

end Sys2Proof.Machine
end

