-- ==== Sys2Proof/Machine/Abstract.lean ====
section
/-! DEFINITION. The abstract level of 00_scope.md R8: the five commands of 30_encoding.md R64 with byte vectors
for operands, over the two key slots alone. The binary level (exec) refines it; it has no length limit. -/

namespace Sys2Proof.Machine

/-- The abstract commands (R64): `key` and `buf` are byte vectors of any length. -/
inductive Command where
  | init (mode : Mode) (key : List Byte)
  | initp (par : Parity) (mode : Mode) (key : List Byte)
  | enc (par : Parity) (buf : List Byte)
  | dec (par : Parity) (buf : List Byte)
  | qry (par : Parity)
  deriving DecidableEq, Repr

/-- The engine at this level: the slots; `chain` is a local of `ChainEnc` and `ChainDec` (R14). -/
structure Engine (K : Type) where
  even : Option (Slot K)
  odd : Option (Slot K)
  deriving DecidableEq, Repr

/-- What a command answers at this level (R60, R64). -/
inductive Reply where
  | ok
  | buffer (out : List Byte)
  | answer (rdy : Bool)
  | failed (f : Failure)
  deriving DecidableEq, Repr

variable {K : Type}

/-- The slot of a parity. -/
def Engine.slot (e : Engine K) : Parity → Option (Slot K)
  | .even => e.even
  | .odd => e.odd

/-- Write a slot as a whole. -/
def Engine.setSlot (e : Engine K) (p : Parity) (v : Slot K) : Engine K :=
  match p with
  | .even => { e with even := some v }
  | .odd => { e with odd := some v }

/-- Install a control word of exactly 8 bytes, else `InvalidKeyLength` and nothing changes (R121). -/
def Engine.install (e : Engine K) (key : List Byte) (put : Bytes8 → Engine K) : Engine K × Reply :=
  match Bytes8.ofList? key with
  | none => (e, .failed .invalidKeyLength)
  | some k => (put k, .ok)

/-- The buffer under the schedule of `par`, else `EngineNotInitialized` and nothing changes (R122). -/
def Engine.transform (e : Engine K) (par : Parity) (f : K → List Byte) : Engine K × Reply :=
  match e.slot par with
  | none => (e, .failed .engineNotInitialized)
  | some v => (e, .buffer (f v.ks))

/-- One abstract command (44_engine_commands.md R101 to R105). -/
def Engine.run (c : Cipher) (e : Engine c.KS) : Command → Engine c.KS × Reply
  | .init mode key =>
    e.install key (fun k => (e.setSlot .even (slotFor c mode k)).setSlot .odd (slotFor c mode k))
  | .initp par mode key => e.install key (fun k => e.setSlot par (slotFor c mode k))
  | .enc par buf => e.transform par (fun ks => chainEnc c ks buf)
  | .dec par buf => e.transform par (fun ks => chainDec c ks buf)
  | .qry par => (e, .answer (e.slot par).isSome)

/-- The slots of the machine. -/
def State.engine (s : State K) : Engine K := ⟨s.even, s.odd⟩

/-- The abstract command a command is when its span holds `bytes` (R8). -/
def commandOf (bytes : List Byte) : Instr → Command
  | .init mode _ => .init mode bytes
  | .initp par mode _ => .initp par mode bytes
  | .enc par _ => .enc par bytes
  | .dec par _ => .dec par bytes
  | .qry par => .qry par

/-- The response word a reply is delivered as (R60, R61). -/
def Reply.word : Reply → BitVec 32
  | .ok => responseWord statusOk false
  | .buffer _ => responseWord statusOk false
  | .answer rdy => responseWord statusOk rdy
  | .failed f => responseWord f.code false

end Sys2Proof.Machine
end

