-- ==== Sys2Proof/Machine/InPlace.lean ====
section
/-! DEFINITION. The engine's own walk over a payload span (20_memory.md R36, 43_chaining_stream.md R99):
strictly forward, block by block in place, with the chaining register as the only storage. It records
every byte access and counts the block-transform calls, so that R35, R36, R97 and R99 can be stated. The
meanings of `ENC` and `DEC` use the whole span at once, which R36 says is the same.

The order of the bytes INSIDE a block or residue is the model's DESIGN CHOICE (log entry 21); R36 gives the
order of the blocks and the reads of a block before its writes. -/

namespace Sys2Proof.Machine

/-- One byte access of the engine to `HM` (R35). -/
inductive Access where
  | read (a : Nat)
  | write (a : Nat)
  deriving DecidableEq, Repr

/-- A walk in progress: memory, `chain`, how often `BlockEnc` or `BlockDec` was applied, and the accesses
made so far, oldest first. -/
structure Walk where
  mem : Memory
  chain : Bytes8
  calls : Nat
  log : List Access
  deriving DecidableEq, Repr

/-- The walk as an `ENC` or `DEC` begins it: `chain <- 0^8` (R91). -/
def walkStart (m : Memory) : Walk := ⟨m, Bytes8.zero, 0, []⟩

/-- The addresses of `n` bytes from `base` on (R31), in ascending offset. Taken as an order of accesses inside
one block or residue, this is the model's DESIGN CHOICE: the spec leaves that order open
(93_implementation_defined.md U15, 70_reset_and_hazards.md R144; log entry 21). -/
def spanAddrs (base : Nat) : Nat → List Nat
  | 0 => []
  | n + 1 => spanAddr base 0 :: spanAddrs (base + 1) n

/-- Replace the `n` bytes at `base` by a function of them and of the walk: read them all, then write the
result to the same addresses (R36). That the reads, and then the writes, go in ascending offset inside the
piece is the model's DESIGN CHOICE (log entry 21). -/
def walkPiece (base n : Nat) (f : List Byte → List Byte) (chain : List Byte → Bytes8) (calls : Nat) (w : Walk) :
    Option Walk :=
  match w.mem.readSpan base n with
  | none => none
  | some bs =>
    some ⟨w.mem.writeSpan base (f bs), chain bs, w.calls + calls,
      w.log ++ (spanAddrs base n).map .read ++ (spanAddrs base n).map .write⟩

/-- Which way a walk goes. -/
inductive Direction where
  | scramble
  | descramble
  deriving DecidableEq, Repr

/-- One full block and the chaining value after it (R92, R93). -/
def blockStep (c : Cipher) (s : c.KS) (chain : Bytes8) : Direction → Bytes8 → Bytes8 × Bytes8
  | .scramble, b => (c.blockEnc s (b.xor chain), c.blockEnc s (b.xor chain))
  | .descramble, y => ((c.blockDec s y).xor chain, y)

/-- The block a byte list of length 8 spells. -/
def blockOf (bs : List Byte) : Bytes8 := (Bytes8.ofList? bs).getD Bytes8.zero

/-- The `n` full blocks from `base` on, forward (R92, R93). -/
def walkBlocks (c : Cipher) (s : c.KS) (d : Direction) : Nat → Nat → Walk → Option Walk
  | 0, _, w => some w
  | n + 1, base, w =>
    match walkPiece base 8 (fun bs => (blockStep c s w.chain d (blockOf bs)).1.toList)
        (fun bs => (blockStep c s w.chain d (blockOf bs)).2) 1 w with
    | none => none
    | some w' => walkBlocks c s d n (base + 8) w'

/-- The residue of `r` bytes at `base` after `n` full blocks: the seed is `chain` as it stands when there was
a block, else one `BlockEnc` of it (R94); `chain` is not updated (R95). -/
def walkResidue (c : Cipher) (s : c.KS) (n base r : Nat) (w : Walk) : Option Walk :=
  if r = 0 then some w
  else
    let sd := if n = 0 then c.blockEnc s w.chain else w.chain
    walkPiece base r (fun bs => xorBytes bs sd.toList) (fun _ => w.chain) (if n = 0 then 1 else 0) w

/-- The whole walk over a span: `n = LEN div 8` blocks, then `r = LEN mod 8` residue bytes (R90). -/
def walkSpan (c : Cipher) (s : c.KS) (d : Direction) (sp : Span) (m : Memory) : Option Walk :=
  match walkBlocks c s d (sp.len / 8) sp.base (walkStart m) with
  | none => none
  | some w => walkResidue c s (sp.len / 8) (sp.base + 8 * (sp.len / 8)) (sp.len % 8) w

end Sys2Proof.Machine
end

