-- ==== Sys2Proof/Safety.lean ====
section
/-! DEFINITION. The predicates claims are stated in: the invariant of the machine, spans the host owns, what a
command touches, blocks of a payload, and the end of a run. -/

namespace Sys2Proof.Machine

/-- Every byte of the span is one the host has placed, so the command has a meaning (20_memory.md R38). -/
def State.owns (s : State) (sp : Span) : Prop := ∀ a, spanCovers sp a → s.mem.read a ≠ none

/-- The span holds exactly these bytes, byte `i` at `(BASE + i) mod 2^ABITS` (20_memory.md R31). -/
def State.holds (s : State) (sp : Span) (bs : List Byte) : Prop :=
  bs.length = sp.len ∧ ∀ i, i < sp.len → s.mem.read (spanAddr sp.base i) = bs[i]?

/-- The payload span a command may write (20_memory.md R35): `ENC` and `DEC` have one. -/
def payloadOf : Instr → Option Span
  | .init _ _ => none
  | .initp _ _ _ => none
  | .enc _ sp => some sp
  | .dec _ sp => some sp
  | .qry _ => none

/-- The span a command goes on to read after validation (20_memory.md R35): the key span when `LEN = 8`, the
payload span when the parity is READY. -/
def touchedSpan (s : State) : Instr → Option Span
  | .init _ sp => if sp.len = 8 then some sp else none
  | .initp _ _ sp => if sp.len = 8 then some sp else none
  | .enc par sp => if s.ready par then some sp else none
  | .dec par sp => if s.ready par then some sp else none
  | .qry _ => none

/-- The span operand of a command (30_encoding.md R64); `QRY` has none. -/
def spanOf : Instr → Option Span
  | .init _ sp => some sp
  | .initp _ _ sp => some sp
  | .enc _ sp => some sp
  | .dec _ sp => some sp
  | .qry _ => none

/-- The command installs a control word in slot `p` from this span under this mode (R101, R102). -/
def installsIn (p : Parity) (mode : Mode) (sp : Span) (i : Instr) : Prop :=
  i = .init mode sp ∨ i = .initp p mode sp

/-- Every installed slot holds the schedule of its own control word under some mode (10_state.md R12, R13;
41_key_schedule.md R78, R79). -/
def State.slotsInstalled (s : State) : Prop :=
  ∀ p v, s.slot p = some v → ∃ mode, v.ks = install Config.cipher mode v.cw

/-- The five response words an engine ever produces (30_encoding.md R61). -/
def legalResponses : List (BitVec 32) := [0x00000000, 0x00000100, 0x00000001, 0x00000002, 0x0000000F]

/-- The machine's invariant: memory in canonical form inside the address space (20_memory.md R30), slots as
installation leaves them, one response per command answered (10_state.md R16, R20), each of the five
words of R61. That `resp` is empty when `cmdidx` is 0 after reset, and emptied by a reset event, is the
model's DESIGN CHOICE (log entry 8): `one_response_each` rests on it. -/
structure State.Inv (s : State) : Prop where
  mem_wf : s.mem.wf
  slots : s.slotsInstalled
  one_response_each : s.resp.length = s.cmdidx
  responses_legal : ∀ w ∈ s.resp, w ∈ legalResponses

/-- The run of R151 has ended: no event of the host is waiting (and no command is ever in flight here). -/
def State.runEnded (s : State) : Prop := s.port = []

/-- The same state but for what no command's result depends on: the chaining register (R14), the counter
behind its free value, and the control words (R13). -/
structure SameObservable (s t : State) : Prop where
  even : s.even.map Slot.ks = t.even.map Slot.ks
  odd : s.odd.map Slot.ks = t.odd.map Slot.ks
  mem : s.mem = t.mem
  port : s.port = t.port
  cmdidx : s.cmdidx = t.cmdidx
  resp : s.resp = t.resp

/-- The same state but for the key material itself: what is READY, memory and the host's side agree. -/
structure SameButKeys (s t : State) : Prop where
  ready : ∀ p, s.ready p = t.ready p
  mem : s.mem = t.mem
  port : s.port = t.port
  cmdidx : s.cmdidx = t.cmdidx
  resp : s.resp = t.resp

/-- Block `i` of a byte vector (43_chaining_stream.md R90): bytes `8*i` to `8*i + 7`. -/
def blockAt (l : List Byte) (i : Nat) : Bytes8 := blockOf ((l.drop (8 * i)).take 8)

/-- The accesses of one piece of the walk, `n` bytes from offset `k` of a span: all read, then all written
(20_memory.md R36). The ascending offset inside the piece is the model's DESIGN CHOICE (log entry 21). -/
def pieceLog (base k n : Nat) : List Access :=
  (List.range n).map (fun j => .read (spanAddr base (k + j))) ++
    (List.range n).map (fun j => .write (spanAddr base (k + j)))

/-- The accesses of a whole walk: the full blocks forward, then the residue (20_memory.md R36). The
order of the bytes inside a block or residue is the model's DESIGN CHOICE (log entry 21). -/
def spanLog (sp : Span) : List Access :=
  (List.range (sp.len / 8)).flatMap (fun i => pieceLog sp.base (8 * i) 8) ++
    pieceLog sp.base (8 * (sp.len / 8)) (sp.len % 8)

end Sys2Proof.Machine
end

