-- ==== Sys2Proof/Certificates/Slice0/Obligations.lean ====
section
/-! DEFINITION. The statements for the provers, from the numbered rules of spec/. -/

open Sys2Proof Sys2Proof.Machine

/-! ### Encoding -/

/-- 30_encoding.md R57: `decode(encode(c)) = c` for every command whose `BASE` and `LEN` fit 32 bits. -/
def Obligations.DecodeInvertsEncode : Prop := ∀ i : Instr, i.WellFormed → decode (encode i) = .ok i

/-- 30_encoding.md R57: `encode(decode(D)) = D` for every `D` that is not `Illegal`, and what is decoded fits. -/
def Obligations.EncodeInvertsDecode : Prop :=
  ∀ (d : Descriptor) (i : Instr), decode d = .ok i → i.WellFormed ∧ encode i = d

/-- 30_encoding.md R56: a descriptor spells the command of a row exactly when `D AND mask = match`, and no
descriptor spells two. -/
def Obligations.DecoderMatchesOpcodeTable : Prop :=
  ∀ d : Descriptor,
    ((∃ m sp, decode d = .ok (.init m sp)) ↔
      d &&& 0x0000000000000000FFFFFDFF#96 = 0x000000000000000000000001#96) ∧
    ((∃ p m sp, decode d = .ok (.initp p m sp)) ↔
      d &&& 0x0000000000000000FFFFFCFF#96 = 0x000000000000000000000002#96) ∧
    ((∃ p sp, decode d = .ok (.enc p sp)) ↔
      d &&& 0x0000000000000000FFFFFEFF#96 = 0x000000000000000000000003#96) ∧
    ((∃ p sp, decode d = .ok (.dec p sp)) ↔
      d &&& 0x0000000000000000FFFFFEFF#96 = 0x000000000000000000000004#96) ∧
    ((∃ p, decode d = .ok (.qry p)) ↔
      d &&& 0xFFFFFFFFFFFFFFFFFFFFFEFF#96 = 0x000000000000000000000005#96) ∧
    (opcodeRows.filter fun r => r.spells d).length ≤ 1

/-- 30_encoding.md section 6 and 95_test_vectors.md section 3.6: a few of the spec's own words. -/
def Obligations.SpecWordsDecode : Prop :=
  decode 0x000000080000010000000201#96 = .ok (.init .reduced ⟨0x100, 8⟩) ∧
  decode 0x000000080000010800000102#96 = .ok (.initp .odd .normal ⟨0x108, 8⟩) ∧
  decode 0x0000000D0000020000000103#96 = .ok (.enc .odd ⟨0x200, 13⟩) ∧
  decode 0x00000008FFFFFFFC00000104#96 = .ok (.dec .odd ⟨0xFFFFFFFC, 8⟩) ∧
  decode 0x000000000000000000000105#96 = .ok (.qry .odd) ∧
  decode 0x000000000000000000000000#96 = .error .reservedOpcode ∧
  decode 0x0000000D0000020000000403#96 = .error .reservedBits ∧
  decode 0x000000080000010000000101#96 = .error .unusedPar ∧
  decode 0x0000000D0000020000000304#96 = .error .unusedMode ∧
  decode 0x000000010000000000000105#96 = .error .unusedSpan

/-- 20_memory.md R33: 12 bytes, `W0` first, each word least significant byte first; the byte form loses nothing. -/
def Obligations.DescriptorBytesAreLittleEndian : Prop :=
  ∀ (d : Descriptor) (rest : List Byte),
    descOfBytes (descToBytes d ++ rest) = some (d, rest) ∧ (descToBytes d).length = 12 ∧
    ∀ n, n < 12 → (descToBytes d)[n]? = some (d.extractLsb' (8 * n) 8)

/-- 30_encoding.md R62: the line of a command spells exactly the descriptor `encode` gives. The number form the
model writes is its own choice (log entry 15). -/
def Obligations.AssemblerLineSpellsItsCommand : Prop :=
  ∀ i : Instr, i.WellFormed →
    parseLine (asmText i) = some (.command i) ∧ assemble [asmText i] = some [.descriptor (encode i)]

/-! ### The step and the host's events -/

/-- 44_engine_commands.md R100: a descriptor that decodes to a command runs that command, and the step adds
nothing but taking the descriptor from the port. -/
def Obligations.StepRunsTheDecodedCommand : Prop :=
  ∀ (s : State) (d : Descriptor) (rest : List HostEvent) (i : Instr),
    s.port = .descriptor d :: rest → decode d = .ok i → step s = exec i { s with port := rest }

/-- The table's word placed by `withFetchWord` is what the next step runs, in an otherwise unchanged state (the
model's interface, log entry 9). -/
def Obligations.PlacedWordRunsNext : Prop :=
  ∀ (s : State) (nbits w : Nat) (i : Instr),
    decodeTableWord nbits w = some i → step (s.withFetchWord nbits w) = exec i s

/-- 30_encoding.md R58: an illegal descriptor is answered with `0x0000000F`, and nothing else of engine or
memory changes. -/
def Obligations.IllegalDescriptorHasNoEffect : Prop :=
  ∀ (s : State) (d : Descriptor) (e : Illegal) (rest : List HostEvent),
    s.port = .descriptor d :: rest → decode d = .error e →
      step s = .next { s with port := rest, resp := s.resp ++ [0x0000000F], cmdidx := s.cmdidx + 1 }

/-- 60_exceptions.md R131: between commands the engine is idle and keeps its state; 70_reset_and_hazards.md R151:
there is no terminal state. -/
def Obligations.IdleEngineKeepsItsState : Prop := ∀ s : State, s.runEnded → step s = .next s

/-- 70_reset_and_hazards.md R140, R141: after a reset event both parities are UNINITIALIZED, `ENC` and `DEC` fail
for every parity, `QRY` answers 0, and `HM` is not touched. That `cmdidx` and `resp` start anew is the
model's reading (log entry 8). -/
def Obligations.ResetEventUninitialises : Prop :=
  ∀ (s : State) (rest : List HostEvent), s.port = .reset :: rest →
    ∃ t, step s = .next t ∧ t.mem = s.mem ∧ t.port = rest ∧ t.cmdidx = 0 ∧ t.resp = [] ∧
      ∀ p, t.ready p = false ∧
        (∀ sp, exec (.enc p sp) t = .next { t with resp := [0x00000002], cmdidx := 1 }) ∧
        (∀ sp, exec (.dec p sp) t = .next { t with resp := [0x00000002], cmdidx := 1 }) ∧
        exec (.qry p) t = .next { t with resp := [0x00000000], cmdidx := 1 }

/-- 10_state.md R23, 60_exceptions.md R122: the state after reset has both parities UNINITIALIZED, and in it `ENC`
and `DEC` fail for every parity and `QRY` answers 0. That `resp` is empty there is the model's (log entry 8). -/
def Obligations.ResetState : Prop :=
  ∀ p, State.reset.slot p = none ∧
    (∀ sp, exec (.enc p sp) State.reset = .next { State.reset with resp := [0x00000002], cmdidx := 1 }) ∧
    (∀ sp, exec (.dec p sp) State.reset = .next { State.reset with resp := [0x00000002], cmdidx := 1 }) ∧
    exec (.qry p) State.reset = .next { State.reset with resp := [0x00000000], cmdidx := 1 }

/-- 20_memory.md R40 (b): a host store between commands is what the next command reads. That the store's
addresses wrap and then count as owned is the model's reading (log entries 6 and 7). -/
def Obligations.HostStoreIsVisible : Prop :=
  ∀ (s : State) (addr : Nat) (bs : List Byte) (rest : List HostEvent),
    s.port = .store addr bs :: rest → bs.length ≤ 2 ^ 32 →
      ∃ m, step s = .next { s with port := rest, mem := m } ∧
        (∀ i, i < bs.length → m.read ((addr + i) % 2 ^ 32) = bs[i]?) ∧
        ∀ a, (∀ i, i < bs.length → (addr + i) % 2 ^ 32 ≠ a) → m.read a = s.mem.read a

/-- 10_state.md R16, 70_reset_and_hazards.md R151: a list of descriptors is executed in order, one response each,
`cmdidx` advancing by exactly 1 whatever the status, and the run ends when the list is used up. -/
def Obligations.RunAnswersEveryDescriptor : Prop :=
  ∀ (ds : List Descriptor) (s t : State), s.port = ds.map .descriptor →
    Sys2Proof.core.run ds.length s = .next t →
      t.runEnded ∧ t.cmdidx = s.cmdidx + ds.length ∧
      ∃ ws, t.resp = s.resp ++ ws ∧ ws.length = ds.length ∧ ∀ w ∈ ws, w ∈ legalResponses

/-! ### The five commands -/

/-- 44_engine_commands.md R101: `INIT` installs one control word in both slots, or fails on its length alone. -/
def Obligations.InitInstallsBothSlots : Prop :=
  ∀ (mode : Mode) (sp : Span) (s : State),
    (sp.len ≠ 8 → exec (.init mode sp) s =
      .next { s with resp := s.resp ++ [0x00000001], cmdidx := s.cmdidx + 1 }) ∧
    ∀ k : Bytes8, sp.len = 8 → s.holds sp k.toList →
      exec (.init mode sp) s = .next
        { s with
          even := some ⟨install Config.cipher mode k, k⟩
          odd := some ⟨install Config.cipher mode k, k⟩
          resp := s.resp ++ [0x00000000]
          cmdidx := s.cmdidx + 1 }

/-- 44_engine_commands.md R102: `INITP` installs a control word in one slot and leaves the other as it was. -/
def Obligations.InitpInstallsOneSlot : Prop :=
  ∀ (par : Parity) (mode : Mode) (sp : Span) (s : State),
    (sp.len ≠ 8 → exec (.initp par mode sp) s =
      .next { s with resp := s.resp ++ [0x00000001], cmdidx := s.cmdidx + 1 }) ∧
    ∀ k : Bytes8, sp.len = 8 → s.holds sp k.toList →
      exec (.initp par mode sp) s = .next
        { s with
          even := if par = .even then some ⟨install Config.cipher mode k, k⟩ else s.even
          odd := if par = .odd then some ⟨install Config.cipher mode k, k⟩ else s.odd
          resp := s.resp ++ [0x00000000]
          cmdidx := s.cmdidx + 1 }

/-- 44_engine_commands.md R103: `ENC` replaces exactly the span by `ChainEnc(ks[par], B)`; everything else but
`chain` (and the model's counter behind its free value) is as before; not READY it fails whatever `LEN` is. -/
def Obligations.EncScramblesTheSpan : Prop :=
  ∀ (par : Parity) (sp : Span) (s : State),
    (s.ready par = false → exec (.enc par sp) s =
      .next { s with resp := s.resp ++ [0x00000002], cmdidx := s.cmdidx + 1 }) ∧
    ∀ (v : Slot Config.KS) (bs : List Byte), sp.WellFormed → s.slot par = some v → s.holds sp bs →
      ∃ m ch n,
        exec (.enc par sp) s = .next
          { s with mem := m, chain := ch, fresh := n, resp := s.resp ++ [0x00000000], cmdidx := s.cmdidx + 1 } ∧
        (∀ i, i < sp.len → m.read (spanAddr sp.base i) = (chainEnc Config.cipher v.ks bs)[i]?) ∧
        ∀ a, ¬ spanCovers sp a → m.read a = s.mem.read a

/-- 44_engine_commands.md R104: `DEC` replaces exactly the span by `ChainDec(ks[par], B)`, otherwise as `ENC`. -/
def Obligations.DecDescramblesTheSpan : Prop :=
  ∀ (par : Parity) (sp : Span) (s : State),
    (s.ready par = false → exec (.dec par sp) s =
      .next { s with resp := s.resp ++ [0x00000002], cmdidx := s.cmdidx + 1 }) ∧
    ∀ (v : Slot Config.KS) (bs : List Byte), sp.WellFormed → s.slot par = some v → s.holds sp bs →
      ∃ m ch n,
        exec (.dec par sp) s = .next
          { s with mem := m, chain := ch, fresh := n, resp := s.resp ++ [0x00000000], cmdidx := s.cmdidx + 1 } ∧
        (∀ i, i < sp.len → m.read (spanAddr sp.base i) = (chainDec Config.cipher v.ks bs)[i]?) ∧
        ∀ a, ¬ spanCovers sp a → m.read a = s.mem.read a

/-- 44_engine_commands.md R105: `QRY` answers `OK` with `ready[par]` in bit 8 and changes nothing. -/
def Obligations.QryReportsReadiness : Prop :=
  ∀ (par : Parity) (s : State),
    exec (.qry par) s = .next
      { s with
        resp := s.resp ++ [if s.ready par = true then 0x00000100 else 0x00000000]
        cmdidx := s.cmdidx + 1 }

/-- 30_encoding.md R59, 90_conflicts.md C3: `LEN = 0` on a READY parity changes no slot and no byte and answers
`OK`; on an UNINITIALIZED one it fails. `chain` and `fresh` are left open (log entry 4). -/
def Obligations.EmptyPayloadChangesNoByte : Prop :=
  ∀ (par : Parity) (base : Nat) (i : Instr) (s : State), i = .enc par ⟨base, 0⟩ ∨ i = .dec par ⟨base, 0⟩ →
    (s.ready par = true → ∃ ch n, exec i s = .next
      { s with chain := ch, fresh := n, resp := s.resp ++ [0x00000000], cmdidx := s.cmdidx + 1 }) ∧
    (s.ready par = false → exec i s =
      .next { s with resp := s.resp ++ [0x00000002], cmdidx := s.cmdidx + 1 })

/-- 44_engine_commands.md R110: `INIT` leaves what `INITP EVEN` then `INITP ODD` leave, but for the number of
responses; both forms fail exactly when the length is not 8; in between only EVEN carries the new schedule. -/
def Obligations.InitIsTwoInitp : Prop :=
  ∀ (mode : Mode) (sp : Span) (s : State),
    (sp.len ≠ 8 →
      exec (.init mode sp) s = .next { s with resp := s.resp ++ [0x00000001], cmdidx := s.cmdidx + 1 } ∧
      ∃ u, exec (.initp .even mode sp) s = .next u ∧
        exec (.initp .odd mode sp) u =
          .next { s with resp := s.resp ++ [0x00000001, 0x00000001], cmdidx := s.cmdidx + 2 }) ∧
    ∀ t, sp.len = 8 → exec (.init mode sp) s = .next t →
      t.resp = s.resp ++ [0x00000000] ∧
      ∃ u, exec (.initp .even mode sp) s = .next u ∧ u.even = t.even ∧ u.odd = s.odd ∧
        exec (.initp .odd mode sp) u =
          .next { t with resp := s.resp ++ [0x00000000, 0x00000000], cmdidx := s.cmdidx + 2 }

/-- 20_memory.md R37: `INIT`, `INITP` and `QRY` are idempotent: repeating one leaves the same state but for the
second response, which is the same word. -/
def Obligations.InstallationIsIdempotent : Prop :=
  ∀ (i : Instr) (s t : State), payloadOf i = none → exec i s = .next t →
    ∃ w, t.resp = s.resp ++ [w] ∧
      exec i t = .next { t with resp := t.resp ++ [w], cmdidx := t.cmdidx + 1 }

/-! ### Failures -/

/-- 60_exceptions.md R121: the status 0x1 is answered exactly by an installation whose length is not 8, and then
both parities and all else but the response list and its count are unchanged. -/
def Obligations.InvalidKeyLengthCause : Prop :=
  ∀ (d : Descriptor) (s t : State), runDescriptor d s = .next t →
    (t.resp = s.resp ++ [0x00000001] ↔
      ∃ i p mode sp, decode d = .ok i ∧ installsIn p mode sp i ∧ sp.len ≠ 8) ∧
    (t.resp = s.resp ++ [0x00000001] →
      t = { s with resp := s.resp ++ [0x00000001], cmdidx := s.cmdidx + 1 })

/-- 60_exceptions.md R122: the status 0x2 is answered exactly by `ENC` or `DEC` of a parity that is not READY,
whatever the length, and then nothing but the response list and its count changes. -/
def Obligations.EngineNotInitializedCause : Prop :=
  ∀ (d : Descriptor) (s t : State), runDescriptor d s = .next t →
    (t.resp = s.resp ++ [0x00000002] ↔
      ∃ p sp, (decode d = .ok (.enc p sp) ∨ decode d = .ok (.dec p sp)) ∧ s.ready p = false) ∧
    (t.resp = s.resp ++ [0x00000002] →
      t = { s with resp := s.resp ++ [0x00000002], cmdidx := s.cmdidx + 1 })

/-- 20_memory.md R46, 60_exceptions.md R120: a command that fails changes nothing but the response list and its
count, and its outcome does not depend on memory. -/
def Obligations.FailedCommandHasNoEffect : Prop :=
  ∀ (d : Descriptor) (s t : State) (w : BitVec 32), runDescriptor d s = .next t → t.resp = s.resp ++ [w] →
    w ≠ 0x00000000 → w ≠ 0x00000100 →
      t = { s with resp := s.resp ++ [w], cmdidx := s.cmdidx + 1 } ∧
      ∀ m : Memory, runDescriptor d { s with mem := m } = .next { t with mem := m }

/-- 30_encoding.md R60, R61: every descriptor, legal or not, is answered by exactly one response word, one of
five, with `RDY` only in the answer of a `QRY` on a READY parity; the span it goes on to read must be one the
host owns (20_memory.md R38). -/
def Obligations.EveryDescriptorGetsOneResponse : Prop :=
  ∀ (d : Descriptor) (s : State),
    (∀ i sp, decode d = .ok i → touchedSpan s i = some sp → s.owns sp) →
      ∃ t w, runDescriptor d s = .next t ∧ t.resp = s.resp ++ [w] ∧ t.cmdidx = s.cmdidx + 1 ∧ t.port = s.port ∧
        w ∈ legalResponses ∧
        (w.getLsbD 8 = true ↔ ∃ p, decode d = .ok (.qry p) ∧ s.ready p = true)

/-- 20_memory.md R38: the model refuses exactly the commands that go on to read an address the host has placed no
byte at, under one name, and never faults. That an unlisted address is not owned is the model's reading
(log entry 6). -/
def Obligations.RefusedExactlyOverUnownedSpans : Prop :=
  ∀ (i : Instr) (s : State),
    (∀ r, exec i s = .refused r ↔
      r = .spanNotOwned ∧ ∃ sp, touchedSpan s i = some sp ∧ ¬ s.owns sp) ∧
    ∀ f, exec i s ≠ .fault f

/-! ### Frames and the state machine -/

/-- 20_memory.md R35: no command changes a byte outside its payload span, and `INIT`, `INITP`, `QRY` change none;
no command takes or adds an address of memory, and none touches the port. -/
def Obligations.MemoryFrame : Prop :=
  ∀ (i : Instr) (s t : State), exec i s = .next t →
    (payloadOf i = none → t.mem = s.mem) ∧
    (∀ sp a, payloadOf i = some sp → ¬ spanCovers sp a → t.mem.read a = s.mem.read a) ∧
    (∀ a, t.mem.read a = none ↔ s.mem.read a = none) ∧ t.port = s.port

/-- 10_state.md R12, R13, R14: `ENC`, `DEC` and `QRY` write no slot, `INITP` none but its own, and no command but
`ENC` and `DEC` writes `chain`. -/
def Obligations.RegisterFrame : Prop :=
  ∀ (i : Instr) (s t : State), exec i s = .next t →
    (∀ p, (∀ mode sp, ¬ installsIn p mode sp i) → t.slot p = s.slot p) ∧
    (payloadOf i = none → t.chain = s.chain ∧ t.fresh = s.fresh)

/-- 44_engine_commands.md R106: the table of the two-state machine of a parity `p`. -/
def Obligations.ParityStateMachine : Prop :=
  ∀ (p : Parity) (d : Descriptor) (s t : State), runDescriptor d s = .next t →
    match decode d with
    | .error _ => t.slot p = s.slot p ∧ t.resp = s.resp ++ [0x0000000F]
    | .ok (.init _ sp) =>
      if sp.len = 8 then t.ready p = true ∧ t.resp = s.resp ++ [0x00000000]
      else t.slot p = s.slot p ∧ t.resp = s.resp ++ [0x00000001]
    | .ok (.initp q _ sp) =>
      if q ≠ p then t.slot p = s.slot p
      else if sp.len = 8 then t.ready p = true ∧ t.resp = s.resp ++ [0x00000000]
      else t.slot p = s.slot p ∧ t.resp = s.resp ++ [0x00000001]
    | .ok (.enc q _) =>
      t.slot p = s.slot p ∧
        (q = p → t.resp = s.resp ++ [if s.ready p = true then 0x00000000 else 0x00000002])
    | .ok (.dec q _) =>
      t.slot p = s.slot p ∧
        (q = p → t.resp = s.resp ++ [if s.ready p = true then 0x00000000 else 0x00000002])
    | .ok (.qry q) =>
      t.slot p = s.slot p ∧
        (q = p → t.resp = s.resp ++ [if s.ready p = true then 0x00000100 else 0x00000000])

/-! ### Invariants and whole-machine rules -/

/-- Every step keeps the invariant `State.Inv` (10_state.md R12, R13, R16, R20; 20_memory.md R30; 30_encoding.md R61).
That there are as many responses as `cmdidx` says also after a reset event is the model's choice, not R16's or
R20's: that event sets `cmdidx` to 0 and empties `resp` (log entry 8). -/
def Obligations.EveryStepKeepsTheInvariant : Prop := ∀ s t : State, s.Inv → step s = .next t → t.Inv

/-- The state after reset meets the invariant. That `resp` is empty in it is the model's choice (log entry 8). -/
def Obligations.ResetMeetsTheInvariant : Prop := State.reset.Inv

/-- 10_state.md R11: no command clears a `ready` bit; only reset does. -/
def Obligations.OnlyResetClearsReady : Prop :=
  ∀ (s t : State) (p : Parity), step s = .next t → s.ready p = true →
    t.ready p = true ∨ (∃ rest, s.port = .reset :: rest) ∧ t.slot p = none

/-- 41_key_schedule.md R79, 10_state.md R12, R13: a slot changes only by a successful installation, as a whole, to
`Install(mode, k)` and `k` for the eight bytes of the key span; or by reset (10_state.md R23), after which it
holds no value (R24). -/
def Obligations.SlotChangesOnlyByInstallationOrReset : Prop :=
  ∀ (s t : State) (p : Parity), step s = .next t → t.slot p ≠ s.slot p →
    ((∃ rest, s.port = .reset :: rest) ∧ t.slot p = none) ∨
    ∃ d rest i mode sp k,
      s.port = .descriptor d :: rest ∧ decode d = .ok i ∧ installsIn p mode sp i ∧ sp.len = 8 ∧
      s.holds sp k.toList ∧ t.slot p = some ⟨install Config.cipher mode k, k⟩

/-- 20_memory.md R30, R35: over a step, a byte changes only by a host store to it, or by an `ENC` or `DEC` of a READY
parity whose span covers it. That a host store wraps like a span is the model's reading (log entry 7). -/
def Obligations.MemoryChangesOnlyByStoreOrScrambling : Prop :=
  ∀ (s t : State) (a : Nat), step s = .next t → t.mem.read a ≠ s.mem.read a →
    (∃ addr bs rest i, s.port = .store addr bs :: rest ∧ i < bs.length ∧ spanAddr addr i = a) ∨
    ∃ d rest p sp,
      s.port = .descriptor d :: rest ∧ (decode d = .ok (.enc p sp) ∨ decode d = .ok (.dec p sp)) ∧
      s.ready p = true ∧ spanCovers sp a

/-- 10_state.md R13, R14: no command's result depends on a control word held in a slot or on what `chain` held. -/
def Obligations.ControlWordsAndChainAreUnobservable : Prop :=
  ∀ s t : State, SameObservable s t →
    (∀ s', step s = .next s' → ∃ t', step t = .next t' ∧ SameObservable s' t') ∧
    ∀ r, step s = .refused r → step t = .refused r

/-- 60_exceptions.md R130, 10_state.md R12: key material reaches the host in no response, and memory only by `ENC`
and `DEC`. -/
def Obligations.KeysReachNoResponse : Prop :=
  ∀ (i : Instr) (s t s' : State), SameButKeys s t → exec i s = .next s' →
    ∃ t', exec i t = .next t' ∧ t'.resp = s'.resp ∧ (∀ p, t'.ready p = s'.ready p) ∧
      (payloadOf i = none → t'.mem = s'.mem)

/-- 44_engine_commands.md R103 to R105: `ENC`, `DEC` and `QRY` of one parity do not depend on the other slot. -/
def Obligations.ParitiesAreIsolated : Prop :=
  ∀ (par : Parity) (sp : Span) (i : Instr) (s t s' : State),
    i = .enc par sp ∨ i = .dec par sp ∨ i = .qry par →
    s.slot par = t.slot par → s.mem = t.mem → s.resp = t.resp → exec i s = .next s' →
      ∃ t', exec i t = .next t' ∧ t'.mem = s'.mem ∧ t'.resp = s'.resp ∧ ∀ p, t'.slot p = t.slot p

/-! ### Key conditioning and schedules -/

/-- 40_entropy_reducer.md R73: the laws of `Reduce` (but for the size of its image), and what they say of REDUCED
installation. -/
def Obligations.ReduceLaws : Prop :=
  ∀ (c : Cipher), c.Lawful → ∀ k k' : Bytes8,
    reduce c (reduce c k) = reduce c k ∧
    (reduce c k).and c.erMask = c.erVal ∧
    (reduce c k).and c.erMask.not = k.and c.erMask.not ∧
    (k.and c.erMask.not = k'.and c.erMask.not → install c .reduced k = install c .reduced k') ∧
    (reduce c k = k ↔ k.and c.erMask = c.erVal) ∧
    (k.and c.erMask = c.erVal → install c .reduced k = install c .normal k)

/-- 40_entropy_reducer.md R71 and 41_key_schedule.md R78: the two formulas, byte by byte. -/
def Obligations.InstallationValue : Prop :=
  ∀ (c : Cipher) (k : Bytes8),
    install c .normal k = c.expand k ∧ install c .reduced k = c.expand (reduce c k) ∧
    ∀ i, i < 8 → (reduce c k).toList[i]? =
      (k.toList[i]?.bind fun x => c.erMask.toList[i]?.bind fun m => c.erVal.toList[i]?.map fun v =>
        (x &&& ~~~m) ||| v)

/-! ### Chaining -/

/-- 43_chaining_stream.md R92: each scrambled block is `BlockEnc` of the clear block XOR the scrambled block before. -/
def Obligations.ScrambledBlocks : Prop :=
  ∀ (c : Cipher) (s : c.KS) (l : List Byte) (i : Nat), i < l.length / 8 →
    blockAt (chainEnc c s l) i =
      c.blockEnc s ((blockAt l i).xor (if i = 0 then Bytes8.zero else blockAt (chainEnc c s l) (i - 1)))

/-- 43_chaining_stream.md R93: each clear block is `BlockDec` of the scrambled block XOR the scrambled block before,
which is a block of the input. -/
def Obligations.DescrambledBlocks : Prop :=
  ∀ (c : Cipher) (s : c.KS) (l : List Byte) (i : Nat), i < l.length / 8 →
    blockAt (chainDec c s l) i =
      (c.blockDec s (blockAt l i)).xor (if i = 0 then Bytes8.zero else blockAt l (i - 1))

/-- 43_chaining_stream.md R94, R95: the residue XOR the leading bytes of the seed, which is the last scrambled block
in both directions, or `BlockEnc(s, 0^8)` when there is none. -/
def Obligations.ResidueRule : Prop :=
  ∀ (c : Cipher) (s : c.KS) (l : List Byte),
    (chainEnc c s l).drop (8 * (l.length / 8)) =
      xorBytes (l.drop (8 * (l.length / 8)))
        (if l.length / 8 = 0 then c.blockEnc s Bytes8.zero
          else blockAt (chainEnc c s l) (l.length / 8 - 1)).toList ∧
    (chainDec c s l).drop (8 * (l.length / 8)) =
      xorBytes (l.drop (8 * (l.length / 8)))
        (if l.length / 8 = 0 then c.blockEnc s Bytes8.zero else blockAt l (l.length / 8 - 1)).toList

/-- 43_chaining_stream.md R97: the length of a payload never changes, under any schedule whatever. -/
def Obligations.ChainingPreservesLength : Prop :=
  ∀ (c : Cipher) (s : c.KS) (l : List Byte), (chainEnc c s l).length = l.length ∧ (chainDec c s l).length = l.length

/-- 43_chaining_stream.md R97: `ChainEnc` and `ChainDec` are inverse under every schedule in the range of `Expand`,
for every payload. -/
def Obligations.ChainingRoundTrip : Prop :=
  ∀ (c : Cipher), c.Lawful → ∀ (k : Bytes8) (l : List Byte),
    chainDec c (c.expand k) (chainEnc c (c.expand k) l) = l ∧
    chainEnc c (c.expand k) (chainDec c (c.expand k) l) = l

/-- 43_chaining_stream.md R98: scrambling is prefix-stable on full blocks. -/
def Obligations.ScramblingIsPrefixStable : Prop :=
  ∀ (c : Cipher) (s : c.KS) (m : Nat) (l l' : List Byte), 8 * m ≤ l.length → 8 * m ≤ l'.length →
    l.take (8 * m) = l'.take (8 * m) → (chainEnc c s l).take (8 * m) = (chainEnc c s l').take (8 * m)

/-- 43_chaining_stream.md R98: with at least one full block, `ChainDec` under any cipher and schedule whatever
restores the residue. -/
def Obligations.ResidueNeedsNoKey : Prop :=
  ∀ (c c' : Cipher) (s : c.KS) (s' : c'.KS) (l : List Byte), 8 ≤ l.length →
    (chainDec c' s' (chainEnc c s l)).drop (8 * (l.length / 8)) = l.drop (8 * (l.length / 8))

/-- 43_chaining_stream.md R98, 44_engine_commands.md R104: below 8 bytes `ENC` and `DEC` are the same function, the
XOR with the same leading bytes of `BlockEnc(s, 0^8)`. -/
def Obligations.ShortPayloadsShareOneKeystream : Prop :=
  ∀ (c : Cipher) (s : c.KS) (l : List Byte), l.length < 8 →
    chainEnc c s l = xorBytes l (c.blockEnc s Bytes8.zero).toList ∧ chainDec c s l = chainEnc c s l

/-- 44_engine_commands.md R104, 70_reset_and_hazards.md R148: `DEC` after `ENC` on the same span and parity restores
memory, and `ENC` after `DEC` does. -/
def Obligations.DecUndoesEncInMemory : Prop :=
  ∀ (par : Parity) (sp : Span) (s t : State), s.Inv → sp.WellFormed → s.ready par = true →
    (exec (.enc par sp) s = .next t → ∃ u, exec (.dec par sp) t = .next u ∧ u.mem = s.mem ∧ u.engine = s.engine) ∧
    (exec (.dec par sp) s = .next t → ∃ u, exec (.enc par sp) t = .next u ∧ u.mem = s.mem ∧ u.engine = s.engine)

/-! ### Refinements -/

/-- 20_memory.md R36: the engine's block-by-block walk in place leaves the same memory as one whole-span read,
`ChainEnc` or `ChainDec`, and one whole-span write. -/
def Obligations.WalkIsTheWholeSpanTransform : Prop :=
  ∀ (c : Cipher) (s : c.KS) (d : Direction) (sp : Span) (m : Memory), sp.WellFormed →
    (walkSpan c s d sp m).map Walk.mem =
      (m.readSpan sp.base sp.len).map fun bs =>
        m.writeSpan sp.base (match d with
          | .scramble => chainEnc c s bs
          | .descramble => chainDec c s bs)

/-- 20_memory.md R36, R35: the accesses of a walk in order, block by block forward, each block read before it is
written and never again; 43_chaining_stream.md R97: the number of block-transform calls. The
ascending order of the bytes inside one block or residue is the model's choice, which R36 does not give and U15
and R144 leave open (log entry 21). -/
def Obligations.WalkAccessesAndCalls : Prop :=
  ∀ (c : Cipher) (s : c.KS) (d : Direction) (sp : Span) (m : Memory) (w : Walk),
    walkSpan c s d sp m = some w →
      w.log = spanLog sp ∧
      w.calls = if 0 < sp.len ∧ sp.len < 8 then 1 else sp.len / 8

/-- 20_memory.md R35: in a walk every byte of the span is read once and written once, and no other is touched. -/
def Obligations.WalkTouchesEachByteOnce : Prop :=
  ∀ (sp : Span) (a : Nat), sp.WellFormed →
    (spanCovers sp a → (spanLog sp).count (.read a) = 1 ∧ (spanLog sp).count (.write a) = 1) ∧
    (¬ spanCovers sp a → .read a ∉ spanLog sp ∧ .write a ∉ spanLog sp)

/-- 00_scope.md R8: the binary level refines the abstract level. Where the span holds `bytes`, a command leaves the
slots the abstract command leaves and answers its reply; a reply that is a buffer is what the span then holds. -/
def Obligations.BinaryLevelRefinesAbstract : Prop :=
  ∀ (i : Instr) (s : State) (bytes : List Byte), i.WellFormed →
    (∀ sp, spanOf i = some sp → bytes.length = sp.len) →
    (∀ sp, touchedSpan s i = some sp → s.holds sp bytes) →
      ∃ t, exec i s = .next t ∧
        t.engine = (s.engine.run Config.cipher (commandOf bytes i)).1 ∧
        t.resp = s.resp ++ [(s.engine.run Config.cipher (commandOf bytes i)).2.word] ∧
        ∀ out, (s.engine.run Config.cipher (commandOf bytes i)).2 = .buffer out →
          ∀ sp, payloadOf i = some sp → t.holds sp out
end

