-- ==== Sys2Proof/Laws/Bytes.lean ====
section
/-! SUPPORT. Laws of the bytewise operations and of the two ways between a block and a list. -/

namespace Sys2Proof

@[simp] theorem Bytes8.toList_length (a : Bytes8) : a.toList.length = 8 := rfl

@[simp] theorem Bytes8.ofList?_toList (a : Bytes8) : Bytes8.ofList? a.toList = some a := rfl

/-- XOR with the same vector twice is the identity. -/
@[simp] theorem Bytes8.xor_xor_cancel (a b : Bytes8) : (a.xor b).xor b = a := by
  simp [Bytes8.xor, Bytes8.zipWith]

@[simp] theorem Bytes8.xor_zero (a : Bytes8) : a.xor Bytes8.zero = a := by
  simp [Bytes8.xor, Bytes8.zipWith, Bytes8.zero]

/-- A list that spells a block is that block's bytes. -/
theorem Bytes8.toList_of_ofList? {l : List Byte} {b : Bytes8} (h : Bytes8.ofList? l = some b) : b.toList = l := by
  unfold Bytes8.ofList? at h
  split at h
  · cases h; rfl
  · cases h

/-- Exactly the lists of eight bytes spell a block. -/
theorem Bytes8.ofList?_of_length : ∀ {l : List Byte}, l.length = 8 → ∃ b, Bytes8.ofList? l = some b
  | [b0, b1, b2, b3, b4, b5, b6, b7], _ => ⟨⟨b0, b1, b2, b3, b4, b5, b6, b7⟩, rfl⟩

theorem Bytes8.ofList?_eq_none {l : List Byte} (h : l.length ≠ 8) : Bytes8.ofList? l = none := by
  cases e : Bytes8.ofList? l with
  | none => rfl
  | some b => exact absurd (by rw [← Bytes8.toList_of_ofList? e]; rfl) h

theorem xorBytes_length (a b : List Byte) : (xorBytes a b).length = min a.length b.length := by
  simp [xorBytes]

/-- XOR with the same bytes twice is the identity on a vector no longer than they are. -/
theorem xorBytes_xorBytes_cancel : ∀ {a b : List Byte}, a.length ≤ b.length → xorBytes (xorBytes a b) b = a
  | [], _, _ => by simp [xorBytes]
  | _ :: _, [], h => by simp at h
  | x :: a, y :: b, h => by
    have ih := xorBytes_xorBytes_cancel (a := a) (b := b) (by simpa using h)
    simp only [xorBytes, List.zipWith_cons_cons, BitVec.xor_assoc, BitVec.xor_self, BitVec.xor_zero] at ih ⊢
    rw [ih]

/-- The laws of the hardware's cipher (R5): the only facts about it. -/
theorem Config.cipher_lawful : Config.cipher.Lawful := Config.lawfulCipher.lawful

end Sys2Proof
end

