-- ==== Sys2Proof/Laws/Chaining.lean ====
section
/-! SUPPORT. Laws of the payload's split and of the loops over blocks (43_chaining_stream.md R90 to R95). -/

namespace Sys2Proof.Machine

variable (c : Cipher) (s : c.KS)

/-! ### The split -/

/-- A payload of fewer than 8 bytes is all residue (R90). -/
theorem splitPayload_short {l : List Byte} (h : l.length < 8) : splitPayload l = ([], l) := by
  match l with
  | [] | [_] | [_, _] | [_, _, _] | [_, _, _, _] | [_, _, _, _, _] | [_, _, _, _, _, _]
  | [_, _, _, _, _, _, _] => rfl
  | _ :: _ :: _ :: _ :: _ :: _ :: _ :: _ :: _ => simp at h; omega

/-- A block in front of a payload is its first full block (R90). -/
@[simp] theorem splitPayload_block (b : Bytes8) (l : List Byte) :
    splitPayload (b.toList ++ l) = (b :: (splitPayload l).1, (splitPayload l).2) := rfl

/-- A payload of at least 8 bytes begins with a block. -/
theorem exists_block {l : List Byte} (h : 8 ≤ l.length) : ∃ b rest, l = Bytes8.toList b ++ rest := by
  match l, h with
  | b0 :: b1 :: b2 :: b3 :: b4 :: b5 :: b6 :: b7 :: rest, _ => exact ⟨⟨b0, b1, b2, b3, b4, b5, b6, b7⟩, rest, rfl⟩

/-- Induction over a payload: short, or a block in front of a payload. -/
theorem payload_induction {P : List Byte → Prop} (short : ∀ l : List Byte, l.length < 8 → P l)
    (block : ∀ (b : Bytes8) (l : List Byte), P l → P (b.toList ++ l)) (l : List Byte) : P l := by
  generalize hn : l.length = n
  induction n using Nat.strongRecOn generalizing l with
  | _ n ih =>
    by_cases h : l.length < 8
    · exact short l h
    · obtain ⟨b, rest, rfl⟩ := exists_block (Nat.le_of_not_lt h)
      exact block b rest (ih rest.length (by simp at hn; omega) rest rfl)

/-- Blocks in front of a residue are split off again. -/
theorem splitPayload_join (bs : List Bytes8) {t : List Byte} (h : t.length < 8) :
    splitPayload (joinBlocks bs ++ t) = (bs, t) := by
  induction bs with
  | nil => exact splitPayload_short h
  | cons b bs ih => simp [joinBlocks, List.append_assoc, ih]

/-- The split loses nothing and keeps the order (R90). -/
theorem join_splitPayload (l : List Byte) : joinBlocks (splitPayload l).1 ++ (splitPayload l).2 = l := by
  induction l using payload_induction with
  | short l h => simp [splitPayload_short h, joinBlocks]
  | block b l ih => simp [joinBlocks, List.append_assoc, ih]

/-- `r = L mod 8` (R90). -/
theorem splitPayload_residue_length (l : List Byte) : (splitPayload l).2.length = l.length % 8 := by
  induction l using payload_induction with
  | short l h => rw [splitPayload_short h, Nat.mod_eq_of_lt h]
  | block b l ih => rw [splitPayload_block, ih]; simp

/-- `n = L div 8` (R90). -/
theorem splitPayload_blocks_length (l : List Byte) : (splitPayload l).1.length = l.length / 8 := by
  induction l using payload_induction with
  | short l h => rw [splitPayload_short h, Nat.div_eq_of_lt h]; rfl
  | block b l ih => rw [splitPayload_block, List.length_cons, ih]; simp

theorem splitPayload_residue_lt (l : List Byte) : (splitPayload l).2.length < 8 := by
  rw [splitPayload_residue_length]; exact Nat.mod_lt _ (by decide)

theorem joinBlocks_length (bs : List Bytes8) : (joinBlocks bs).length = 8 * bs.length := by
  induction bs with
  | nil => rfl
  | cons b bs ih => simp [joinBlocks, ih]; omega

theorem joinBlocks_append (as bs : List Bytes8) : joinBlocks (as ++ bs) = joinBlocks as ++ joinBlocks bs := by
  induction as with
  | nil => rfl
  | cons a as ih => simp [joinBlocks, ih]

/-! ### The loops -/

@[simp] theorem encBlocks_length (chain : Bytes8) (bs : List Bytes8) :
    (encBlocks c s chain bs).length = bs.length := by
  induction bs generalizing chain with
  | nil => rfl
  | cons b bs ih => simp [encBlocks, ih]

@[simp] theorem decBlocks_length (chain : Bytes8) (ys : List Bytes8) :
    (decBlocks c s chain ys).length = ys.length := by
  induction ys generalizing chain with
  | nil => rfl
  | cons y ys ih => simp [decBlocks, ih]

/-! ### The residue -/

/-- The residue step is the XOR with the seed's leading bytes, empty residue included (R95). -/
theorem residueOut_eq (chain : Bytes8) (ys : List Bytes8) (t : List Byte) :
    residueOut c s chain ys t = xorBytes t (seed c s chain ys).toList := by
  cases t <;> rfl

theorem residueOut_length (chain : Bytes8) (ys : List Bytes8) {t : List Byte} (h : t.length < 8) :
    (residueOut c s chain ys t).length = t.length := by
  rw [residueOut_eq, xorBytes_length]; simp; omega

/-- The seed with no full block is one `BlockEnc` of the chaining value (R94). -/
@[simp] theorem seed_nil (chain : Bytes8) : seed c s chain [] = c.blockEnc s chain := rfl

/-- The seed with full blocks is the last scrambled one, whatever the schedule (R94). -/
theorem seed_append (chain : Bytes8) (ys : List Bytes8) (y : Bytes8) : seed c s chain (ys ++ [y]) = y := by
  simp [seed]

/-- The split of a scrambled payload: the scrambled blocks and the scrambled residue. -/
theorem splitPayload_chainEncFrom (chain : Bytes8) (l : List Byte) :
    splitPayload (chainEncFrom c s chain l) =
      (encBlocks c s chain (splitPayload l).1,
        residueOut c s chain (encBlocks c s chain (splitPayload l).1) (splitPayload l).2) :=
  splitPayload_join _ (by rw [residueOut_length _ _ _ _ (splitPayload_residue_lt l)]; exact splitPayload_residue_lt l)

/-- The split of a descrambled payload: the descrambled blocks and the descrambled residue. -/
theorem splitPayload_chainDecFrom (chain : Bytes8) (l : List Byte) :
    splitPayload (chainDecFrom c s chain l) =
      (decBlocks c s chain (splitPayload l).1,
        residueOut c s chain (splitPayload l).1 (splitPayload l).2) :=
  splitPayload_join _ (by rw [residueOut_length _ _ _ _ (splitPayload_residue_lt l)]; exact splitPayload_residue_lt l)

end Sys2Proof.Machine
end

