-- ==== Sys2Proof/Laws/Decode.lean ====
section
/-! SUPPORT. The fields of a descriptor built from its words, and what the decoder accepts. -/

namespace Sys2Proof

/-- The fields of `W2 * 2^64 + W1 * 2^32 + W0` (30_encoding.md R50 to R52). -/
theorem descOfWords_fields {w2 w1 opc par mode : Nat} (h2 : w2 < 2 ^ 32) (h1 : w1 < 2 ^ 32) (ho : opc < 2 ^ 8)
    (hp : par < 2) (hm : mode < 2) :
    descOpc (descOfWords w2 w1 (word0 opc par mode)) = opc ∧
    descPar (descOfWords w2 w1 (word0 opc par mode)) = par ∧
    descMode (descOfWords w2 w1 (word0 opc par mode)) = mode ∧
    descRsv0 (descOfWords w2 w1 (word0 opc par mode)) = 0 ∧
    descBase (descOfWords w2 w1 (word0 opc par mode)) = w1 ∧
    descLen (descOfWords w2 w1 (word0 opc par mode)) = w2 := by
  simp only [descOpc, descPar, descMode, descRsv0, descBase, descLen, descBits, descOfWords, word0,
    BitVec.toNat_ofNat]
  omega

theorem descBase_lt (d : Descriptor) : descBase d < 2 ^ 32 := Nat.mod_lt _ (by decide)
theorem descLen_lt (d : Descriptor) : descLen d < 2 ^ 32 := Nat.mod_lt _ (by decide)
theorem descPar_lt (d : Descriptor) : descPar d < 2 := Nat.mod_lt _ (by decide)
theorem descMode_lt (d : Descriptor) : descMode d < 2 := Nat.mod_lt _ (by decide)

/-- A descriptor is the number its fields spell (30_encoding.md R50, R51). -/
theorem toNat_eq_fields (d : Descriptor) :
    d.toNat = descLen d * 2 ^ 64 + descBase d * 2 ^ 32 +
      (descOpc d + 2 ^ 8 * descPar d + 2 ^ 9 * descMode d + 2 ^ 10 * descRsv0 d) := by
  have := d.isLt
  simp only [descOpc, descPar, descMode, descRsv0, descBase, descLen, descBits]
  omega

@[simp] theorem parityOfBit_parityBit (p : Parity) : parityOfBit (parityBit p) = p := by cases p <;> rfl
@[simp] theorem modeOfBit_modeBit (m : Mode) : modeOfBit (modeBit m) = m := by cases m <;> rfl
theorem parityBit_lt (p : Parity) : parityBit p < 2 := by cases p <;> decide
theorem modeBit_lt (m : Mode) : modeBit m < 2 := by cases m <;> decide
theorem parityBit_parityOfBit {n : Nat} (h : n < 2) : parityBit (parityOfBit n) = n := by
  rcases n with _ | _ | n
  · rfl
  · rfl
  · omega
theorem modeBit_modeOfBit {n : Nat} (h : n < 2) : modeBit (modeOfBit n) = n := by
  rcases n with _ | _ | n
  · rfl
  · rfl
  · omega

/-- Everything the decoder accepts, with the command it gives (30_encoding.md R57). -/
theorem decode_ok {d : Descriptor} {i : Instr} (h : decode d = .ok i) :
    descRsv0 d = 0 ∧
    ((descOpc d = 1 ∧ descPar d = 0 ∧ i = .init (modeOfBit (descMode d)) ⟨descBase d, descLen d⟩) ∨
     (descOpc d = 2 ∧ i = .initp (parityOfBit (descPar d)) (modeOfBit (descMode d)) ⟨descBase d, descLen d⟩) ∨
     (descOpc d = 3 ∧ descMode d = 0 ∧ i = .enc (parityOfBit (descPar d)) ⟨descBase d, descLen d⟩) ∨
     (descOpc d = 4 ∧ descMode d = 0 ∧ i = .dec (parityOfBit (descPar d)) ⟨descBase d, descLen d⟩) ∨
     (descOpc d = 5 ∧ descMode d = 0 ∧ descBase d = 0 ∧ descLen d = 0 ∧
        i = .qry (parityOfBit (descPar d)))) := by
  unfold decode at h
  dsimp only at h
  split at h
  · cases h
  split at h
  · split at h <;> cases h
    exact ⟨by omega, .inl ⟨‹_›, ‹_›, rfl⟩⟩
  split at h
  · cases h
    exact ⟨by omega, .inr (.inl ⟨‹_›, rfl⟩)⟩
  split at h
  · split at h <;> cases h
    exact ⟨by omega, .inr (.inr (.inl ⟨‹_›, ‹_›, rfl⟩))⟩
  split at h
  · split at h <;> cases h
    exact ⟨by omega, .inr (.inr (.inr (.inl ⟨‹_›, ‹_›, rfl⟩)))⟩
  split at h
  · split at h
    · cases h
    split at h <;> cases h
    exact ⟨by omega, .inr (.inr (.inr (.inr ⟨‹_›, by omega, (‹_ ∧ _›).1, (‹_ ∧ _›).2, rfl⟩)))⟩
  · cases h

end Sys2Proof
end

