-- ==== Sys2Proof/Laws/State.lean ====
section
/-! SUPPORT. One lemma per field per update of State, so that no proof unfolds a record update. -/

namespace Sys2Proof.Machine

variable {K : Type} (s : State K) (p q : Parity) (v : Slot K) (m : Memory) (st : BitVec 4) (rdy : Bool)
variable (port : List HostEvent) (addr : Nat) (bs : List Byte)

/-! setSlot -/
@[simp] theorem setSlot_chain : (s.setSlot p v).chain = s.chain := by cases p <;> rfl
@[simp] theorem setSlot_mem : (s.setSlot p v).mem = s.mem := by cases p <;> rfl
@[simp] theorem setSlot_port : (s.setSlot p v).port = s.port := by cases p <;> rfl
@[simp] theorem setSlot_cmdidx : (s.setSlot p v).cmdidx = s.cmdidx := by cases p <;> rfl
@[simp] theorem setSlot_resp : (s.setSlot p v).resp = s.resp := by cases p <;> rfl
@[simp] theorem setSlot_fresh : (s.setSlot p v).fresh = s.fresh := by cases p <;> rfl
@[simp] theorem setSlot_slot_self : (s.setSlot p v).slot p = some v := by cases p <;> rfl
theorem setSlot_slot_other (h : q ≠ p) : (s.setSlot p v).slot q = s.slot q := by
  cases p <;> cases q <;> first | rfl | exact absurd rfl h
@[simp] theorem setSlot_even_even : (s.setSlot .even v).even = some v := rfl
@[simp] theorem setSlot_even_odd : (s.setSlot .even v).odd = s.odd := rfl
@[simp] theorem setSlot_odd_even : (s.setSlot .odd v).even = s.even := rfl
@[simp] theorem setSlot_odd_odd : (s.setSlot .odd v).odd = some v := rfl

/-! setMem -/
@[simp] theorem setMem_even : (s.setMem m).even = s.even := rfl
@[simp] theorem setMem_odd : (s.setMem m).odd = s.odd := rfl
@[simp] theorem setMem_slot : (s.setMem m).slot p = s.slot p := by cases p <;> rfl
@[simp] theorem setMem_chain : (s.setMem m).chain = s.chain := rfl
@[simp] theorem setMem_mem : (s.setMem m).mem = m := rfl
@[simp] theorem setMem_port : (s.setMem m).port = s.port := rfl
@[simp] theorem setMem_cmdidx : (s.setMem m).cmdidx = s.cmdidx := rfl
@[simp] theorem setMem_resp : (s.setMem m).resp = s.resp := rfl
@[simp] theorem setMem_fresh : (s.setMem m).fresh = s.fresh := rfl

/-! loadChain -/
@[simp] theorem loadChain_even : s.loadChain.even = s.even := rfl
@[simp] theorem loadChain_odd : s.loadChain.odd = s.odd := rfl
@[simp] theorem loadChain_slot : s.loadChain.slot p = s.slot p := by cases p <;> rfl
@[simp] theorem loadChain_chain : s.loadChain.chain = Bytes8.zero := rfl
@[simp] theorem loadChain_mem : s.loadChain.mem = s.mem := rfl
@[simp] theorem loadChain_port : s.loadChain.port = s.port := rfl
@[simp] theorem loadChain_cmdidx : s.loadChain.cmdidx = s.cmdidx := rfl
@[simp] theorem loadChain_resp : s.loadChain.resp = s.resp := rfl
@[simp] theorem loadChain_fresh : s.loadChain.fresh = s.fresh := rfl

/-! freeChain -/
@[simp] theorem freeChain_even : s.freeChain.even = s.even := rfl
@[simp] theorem freeChain_odd : s.freeChain.odd = s.odd := rfl
@[simp] theorem freeChain_slot : s.freeChain.slot p = s.slot p := by cases p <;> rfl
@[simp] theorem freeChain_chain : s.freeChain.chain = Config.freeChain s.fresh := rfl
@[simp] theorem freeChain_mem : s.freeChain.mem = s.mem := rfl
@[simp] theorem freeChain_port : s.freeChain.port = s.port := rfl
@[simp] theorem freeChain_cmdidx : s.freeChain.cmdidx = s.cmdidx := rfl
@[simp] theorem freeChain_resp : s.freeChain.resp = s.resp := rfl
@[simp] theorem freeChain_fresh : s.freeChain.fresh = s.fresh + 1 := rfl

/-! respond -/
@[simp] theorem respond_even : (s.respond st rdy).even = s.even := rfl
@[simp] theorem respond_odd : (s.respond st rdy).odd = s.odd := rfl
@[simp] theorem respond_slot : (s.respond st rdy).slot p = s.slot p := by cases p <;> rfl
@[simp] theorem respond_chain : (s.respond st rdy).chain = s.chain := rfl
@[simp] theorem respond_mem : (s.respond st rdy).mem = s.mem := rfl
@[simp] theorem respond_port : (s.respond st rdy).port = s.port := rfl
@[simp] theorem respond_cmdidx : (s.respond st rdy).cmdidx = s.cmdidx + 1 := rfl
@[simp] theorem respond_resp : (s.respond st rdy).resp = s.resp ++ [responseWord st rdy] := rfl
@[simp] theorem respond_fresh : (s.respond st rdy).fresh = s.fresh := rfl
theorem respondOk_eq : s.respondOk rdy = s.respond statusOk rdy := rfl

/-! respondOk -/
@[simp] theorem respondOk_even : (s.respondOk rdy).even = s.even := rfl
@[simp] theorem respondOk_odd : (s.respondOk rdy).odd = s.odd := rfl
@[simp] theorem respondOk_slot : (s.respondOk rdy).slot p = s.slot p := by cases p <;> rfl
@[simp] theorem respondOk_chain : (s.respondOk rdy).chain = s.chain := rfl
@[simp] theorem respondOk_mem : (s.respondOk rdy).mem = s.mem := rfl
@[simp] theorem respondOk_port : (s.respondOk rdy).port = s.port := rfl
@[simp] theorem respondOk_cmdidx : (s.respondOk rdy).cmdidx = s.cmdidx + 1 := rfl
@[simp] theorem respondOk_resp : (s.respondOk rdy).resp = s.resp ++ [responseWord statusOk rdy] := rfl
@[simp] theorem respondOk_fresh : (s.respondOk rdy).fresh = s.fresh := rfl

/-! setPort -/
@[simp] theorem setPort_even : (s.setPort port).even = s.even := rfl
@[simp] theorem setPort_odd : (s.setPort port).odd = s.odd := rfl
@[simp] theorem setPort_slot : (s.setPort port).slot p = s.slot p := by cases p <;> rfl
@[simp] theorem setPort_chain : (s.setPort port).chain = s.chain := rfl
@[simp] theorem setPort_mem : (s.setPort port).mem = s.mem := rfl
@[simp] theorem setPort_port : (s.setPort port).port = port := rfl
@[simp] theorem setPort_cmdidx : (s.setPort port).cmdidx = s.cmdidx := rfl
@[simp] theorem setPort_resp : (s.setPort port).resp = s.resp := rfl
@[simp] theorem setPort_fresh : (s.setPort port).fresh = s.fresh := rfl

/-! hostStore -/
@[simp] theorem hostStore_even : (s.hostStore addr bs).even = s.even := rfl
@[simp] theorem hostStore_odd : (s.hostStore addr bs).odd = s.odd := rfl
@[simp] theorem hostStore_slot : (s.hostStore addr bs).slot p = s.slot p := by cases p <;> rfl
@[simp] theorem hostStore_chain : (s.hostStore addr bs).chain = s.chain := rfl
@[simp] theorem hostStore_mem : (s.hostStore addr bs).mem = s.mem.writeSpan addr bs := rfl
@[simp] theorem hostStore_port : (s.hostStore addr bs).port = s.port := rfl
@[simp] theorem hostStore_cmdidx : (s.hostStore addr bs).cmdidx = s.cmdidx := rfl
@[simp] theorem hostStore_resp : (s.hostStore addr bs).resp = s.resp := rfl
@[simp] theorem hostStore_fresh : (s.hostStore addr bs).fresh = s.fresh := rfl

/-! hostReset -/
@[simp] theorem hostReset_even : s.hostReset.even = none := rfl
@[simp] theorem hostReset_odd : s.hostReset.odd = none := rfl
@[simp] theorem hostReset_slot : s.hostReset.slot p = none := by cases p <;> rfl
@[simp] theorem hostReset_chain : s.hostReset.chain = Config.freeChain s.fresh := rfl
@[simp] theorem hostReset_mem : s.hostReset.mem = s.mem := rfl
@[simp] theorem hostReset_port : s.hostReset.port = s.port := rfl
@[simp] theorem hostReset_cmdidx : s.hostReset.cmdidx = 0 := rfl
@[simp] theorem hostReset_resp : s.hostReset.resp = [] := rfl
@[simp] theorem hostReset_fresh : s.hostReset.fresh = s.fresh + 1 := rfl

/-- The flags and slot views of a state are functions of its slot. -/
theorem ready_eq : s.ready p = (s.slot p).isSome := rfl

/-- A parity is READY exactly when its slot is present. -/
theorem ready_iff : s.ready p = true ↔ ∃ v, s.slot p = some v := by
  simp [State.ready, Option.isSome_iff_exists]

/-- A parity is UNINITIALIZED exactly when its slot is absent. -/
theorem not_ready_iff : s.ready p = false ↔ s.slot p = none := by simp [State.ready]

end Sys2Proof.Machine
end

