-- ==== Sys2Proof/Laws/Memory.lean ====
section
/-! SUPPORT. Laws of memory: a read after a write, that every operation keeps the canonical form, and what a
span read and a span write do. -/

namespace Sys2Proof.Machine

/-! ### One byte -/

theorem read_write (m : Memory) (a b : Nat) (v : Byte) :
    (m.write a v).read b = if b = a then some v else m.read b := by
  induction m with
  | nil => by_cases h : b = a <;> simp [Memory.write, Memory.read, h]
  | cons c m ih =>
    obtain ⟨x, w⟩ := c
    simp only [Memory.write]
    split
    · by_cases h : b = a <;> simp [Memory.read, h]
    · split
      · subst_vars
        by_cases h : b = x <;> simp [Memory.read, h]
      · by_cases h : b = x
        · subst h
          simp [Memory.read, Ne.symm ‹¬a = b›]
        · simp [Memory.read, h, ih]

@[simp] theorem read_write_same (m : Memory) (a : Nat) (v : Byte) : (m.write a v).read a = some v := by
  simp [read_write]

theorem read_write_other (m : Memory) {a b : Nat} (v : Byte) (h : b ≠ a) :
    (m.write a v).read b = m.read b := by simp [read_write, h]

/-- The addresses of a write are those of memory and the one written. -/
theorem mem_write {m : Memory} {a : Nat} {v : Byte} {c : Host.Cell} (h : c ∈ m.write a v) :
    c = (a, v) ∨ c ∈ m := by
  induction m with
  | nil => simpa [Memory.write] using h
  | cons d m ih =>
    simp only [Memory.write] at h
    split at h
    · simpa using h
    · split at h
      · rcases List.mem_cons.1 h with h | h
        · exact .inl h
        · exact .inr (List.mem_cons_of_mem _ h)
      · rcases List.mem_cons.1 h with h | h
        · exact .inr (h ▸ List.mem_cons_self)
        · exact (ih h).imp_right (List.mem_cons_of_mem _)

/-- A write keeps the addresses strictly rising. -/
theorem write_pairwise {m : Memory} (a : Nat) (v : Byte) (h : m.Pairwise (fun c d => c.1 < d.1)) :
    (m.write a v).Pairwise (fun c d => c.1 < d.1) := by
  induction m with
  | nil => simp [Memory.write]
  | cons c m ih =>
    have hc := List.pairwise_cons.1 h
    simp only [Memory.write]
    split
    · refine List.pairwise_cons.2 ⟨fun d hd => ?_, h⟩
      rcases List.mem_cons.1 hd with rfl | hd
      · assumption
      · exact Nat.lt_trans ‹_› (hc.1 d hd)
    · split
      · subst_vars
        exact List.pairwise_cons.2 ⟨hc.1, hc.2⟩
      · refine List.pairwise_cons.2 ⟨fun d hd => ?_, ih hc.2⟩
        rcases mem_write hd with rfl | hd
        · simp only; omega
        · exact hc.1 d hd

/-- A write inside the address space keeps the canonical form. -/
theorem write_wf {m : Memory} {a : Nat} (v : Byte) (ha : a < 2 ^ Config.abits) (h : m.wf) : (m.write a v).wf := by
  refine ⟨write_pairwise a v h.1, fun c hc => ?_⟩
  rcases mem_write hc with rfl | hc
  · exact ha
  · exact h.2 c hc

/-! ### Span addresses -/

theorem spanAddr_lt (base i : Nat) : spanAddr base i < 2 ^ Config.abits :=
  Nat.mod_lt _ (by decide)

/-- Counting from the next base is counting one further from this one. -/
theorem spanAddr_succ (base i : Nat) : spanAddr (base + 1) i = spanAddr base (i + 1) := by
  simp [spanAddr, Nat.add_assoc, Nat.add_comm 1 i]

theorem spanAddr_shift (base k i : Nat) : spanAddr (base + k) i = spanAddr base (k + i) := by
  simp [spanAddr, Nat.add_assoc]

/-- Two offsets of one span of at most `2^ABITS` bytes never share an address (20_memory.md R31). -/
theorem spanAddr_inj {base i j : Nat} (hi : i < 2 ^ Config.abits) (hj : j < 2 ^ Config.abits)
    (h : spanAddr base i = spanAddr base j) : i = j := by
  simp only [spanAddr, Config.abits] at *
  omega

/-! ### Span reads -/

@[simp] theorem readSpan_zero (m : Memory) (base : Nat) : m.readSpan base 0 = some [] := rfl

/-- A span read is the byte at the base and the span read of the rest. -/
theorem readSpan_succ (m : Memory) (base n : Nat) :
    m.readSpan base (n + 1) =
      (m.read (spanAddr base 0)).bind fun v => (m.readSpan (base + 1) n).map (v :: ·) := by
  simp only [Memory.readSpan]
  cases m.read (spanAddr base 0) <;> simp
  cases m.readSpan (base + 1) n <;> rfl

/-- What a span read answers: the byte of every offset, in order. -/
theorem readSpan_eq_some {m : Memory} {base n : Nat} {bs : List Byte} :
    m.readSpan base n = some bs ↔ bs.length = n ∧ ∀ i, i < n → m.read (spanAddr base i) = bs[i]? := by
  induction n generalizing base bs with
  | zero =>
    simp only [readSpan_zero, Option.some.injEq]
    constructor
    · rintro rfl; simp
    · rintro ⟨h, -⟩; exact (List.length_eq_zero_iff.1 h).symm
  | succ n ih =>
    rw [readSpan_succ]
    cases bs with
    | nil =>
      simp only [List.length_nil, Nat.right_eq_add, Nat.add_eq_zero_iff, Nat.one_ne_zero, and_false, false_and,
        iff_false]
      cases m.read (spanAddr base 0) <;> simp
    | cons b bs =>
      constructor
      · intro h
        obtain ⟨v, hv, h⟩ := Option.bind_eq_some_iff.1 h
        obtain ⟨vs, hvs, h⟩ := Option.map_eq_some_iff.1 h
        obtain ⟨rfl, rfl⟩ := List.cons.inj h
        obtain ⟨hl, hr⟩ := ih.1 hvs
        refine ⟨by simp [hl], fun i hi => ?_⟩
        cases i with
        | zero => simpa using hv
        | succ i => rw [← spanAddr_succ]; simpa using hr i (by omega)
      · rintro ⟨hl, hr⟩
        have h0 := hr 0 (by omega)
        have ht : m.readSpan (base + 1) n = some bs :=
          ih.2 ⟨by simpa using hl, fun i hi => by rw [spanAddr_succ]; simpa using hr (i + 1) (by omega)⟩
        simp [ht, h0]

/-- A span read fails exactly when some offset has no byte. -/
theorem readSpan_eq_none {m : Memory} {base n : Nat} :
    m.readSpan base n = none ↔ ∃ i, i < n ∧ m.read (spanAddr base i) = none := by
  induction n generalizing base with
  | zero => simp
  | succ n ih =>
    rw [readSpan_succ]
    cases h0 : m.read (spanAddr base 0) with
    | none => simpa using ⟨0, by omega, h0⟩
    | some v =>
      simp only [Option.bind_some, Option.map_eq_none_iff, ih]
      constructor
      · rintro ⟨i, hi, h⟩
        exact ⟨i + 1, by omega, by rwa [← spanAddr_succ]⟩
      · rintro ⟨i, hi, h⟩
        cases i with
        | zero => rw [h0] at h; cases h
        | succ i => exact ⟨i, by omega, by rwa [spanAddr_succ]⟩

theorem readSpan_length {m : Memory} {base n : Nat} {bs : List Byte} (h : m.readSpan base n = some bs) :
    bs.length = n := (readSpan_eq_some.1 h).1

/-- A read of two adjoining spans is the two reads, one after the other. -/
theorem readSpan_add {m : Memory} {base n k : Nat} :
    m.readSpan base (n + k) =
      (m.readSpan base n).bind fun xs => (m.readSpan (base + n) k).map (xs ++ ·) := by
  induction n generalizing base with
  | zero => simp [Option.map_id']
  | succ n ih =>
    rw [Nat.add_right_comm, readSpan_succ, readSpan_succ, ih, Nat.add_assoc base 1 n, Nat.add_comm 1 n]
    cases m.read (spanAddr base 0) <;> simp
    cases m.readSpan (base + 1) n <;> simp
    cases m.readSpan (base + (n + 1)) k <;> simp

/-- Two memories that agree on a span's addresses give the same span read. -/
theorem readSpan_congr {m m' : Memory} {base n : Nat}
    (h : ∀ i, i < n → m.read (spanAddr base i) = m'.read (spanAddr base i)) :
    m.readSpan base n = m'.readSpan base n := by
  induction n generalizing base with
  | zero => rfl
  | succ n ih =>
    rw [readSpan_succ, readSpan_succ, h 0 (by omega),
      ih fun i hi => by rw [spanAddr_succ]; exact h (i + 1) (by omega)]

/-- The control word of a key span is the block its eight bytes spell. -/
theorem readKey_eq_some {m : Memory} {base : Nat} {k : Bytes8} :
    m.readKey base = some k ↔ m.readSpan base 8 = some k.toList := by
  unfold Memory.readKey
  cases h : m.readSpan base 8 with
  | none => simp
  | some bs =>
    simp only [Option.some.injEq]
    exact ⟨fun e => (Bytes8.toList_of_ofList? e).symm, fun e => by rw [e]; rfl⟩

/-! ### Span writes -/

@[simp] theorem writeSpan_nil (m : Memory) (base : Nat) : m.writeSpan base [] = m := rfl

theorem writeSpan_cons (m : Memory) (base : Nat) (v : Byte) (vs : List Byte) :
    m.writeSpan base (v :: vs) = (m.write (spanAddr base 0) v).writeSpan (base + 1) vs := rfl

/-- A span write keeps the canonical form. -/
theorem writeSpan_wf {m : Memory} (base : Nat) (bs : List Byte) (h : m.wf) : (m.writeSpan base bs).wf := by
  induction bs generalizing m base with
  | nil => exact h
  | cons v vs ih => exact ih _ (write_wf v (spanAddr_lt base 0) h)

/-- A span write leaves every address outside the span alone. -/
theorem read_writeSpan_outside (m : Memory) (base : Nat) (bs : List Byte) {a : Nat}
    (h : ∀ i, i < bs.length → spanAddr base i ≠ a) : (m.writeSpan base bs).read a = m.read a := by
  induction bs generalizing m base with
  | nil => rfl
  | cons v vs ih =>
    rw [writeSpan_cons, ih _ _ fun i hi => by rw [spanAddr_succ]; exact h (i + 1) (by simpa using hi)]
    exact read_write_other m v (Ne.symm (h 0 (by simp)))

/-- A span write of at most `2^ABITS` bytes puts each byte at its own address. -/
theorem read_writeSpan_inside (m : Memory) (base : Nat) (bs : List Byte) (hl : bs.length ≤ 2 ^ Config.abits)
    {i : Nat} (hi : i < bs.length) : (m.writeSpan base bs).read (spanAddr base i) = bs[i]? := by
  induction bs generalizing m base i with
  | nil => simp at hi
  | cons v vs ih =>
    rw [List.length_cons] at hl hi
    rw [writeSpan_cons]
    cases i with
    | zero =>
      rw [read_writeSpan_outside]
      · simp
      · intro j hj e
        rw [spanAddr_succ] at e
        exact absurd (spanAddr_inj (by omega) (by omega) e) (by omega)
    | succ i => rw [← spanAddr_succ, ih _ _ (by omega) (by omega)]; rfl

/-- A span write of two adjoining pieces is the two writes, one after the other. -/
theorem writeSpan_append (m : Memory) (base : Nat) (xs ys : List Byte) :
    m.writeSpan base (xs ++ ys) = (m.writeSpan base xs).writeSpan (base + xs.length) ys := by
  induction xs generalizing m base with
  | nil => rfl
  | cons x xs ih =>
    rw [List.cons_append, writeSpan_cons, ih, writeSpan_cons, List.length_cons, Nat.add_assoc, Nat.add_comm 1]

/-- Two canonical memories that read the same everywhere are the same list. -/
theorem memory_ext {m m' : Memory} (h : m.Pairwise (fun c d => c.1 < d.1))
    (h' : m'.Pairwise (fun c d => c.1 < d.1)) (e : ∀ a, m.read a = m'.read a) : m = m' := by
  induction m generalizing m' with
  | nil =>
    cases m' with
    | nil => rfl
    | cons c _ => simpa [Memory.read] using e c.1
  | cons c m ih =>
    cases m' with
    | nil => simpa [Memory.read] using e c.1
    | cons d m' =>
      obtain ⟨x, v⟩ := c
      obtain ⟨y, w⟩ := d
      have hx := List.pairwise_cons.1 h
      have hy := List.pairwise_cons.1 h'
      have notin : ∀ {l : Memory} {a : Nat}, (∀ d ∈ l, a < d.1) → l.read a = none := by
        intro l a hl
        induction l with
        | nil => rfl
        | cons z l ihl =>
          have := hl z List.mem_cons_self
          simp only [Memory.read]
          rw [if_neg (by omega)]
          exact ihl fun d hd => hl d (List.mem_cons_of_mem _ hd)
      have hxy : x = y := by
        rcases Nat.lt_trichotomy x y with hlt | heq | hgt
        · have := e x
          rw [notin (l := (y, w) :: m') (fun d hd => by
            rcases List.mem_cons.1 hd with rfl | hd
            · exact hlt
            · exact Nat.lt_trans hlt (hy.1 d hd))] at this
          simp [Memory.read] at this
        · exact heq
        · have := e y
          rw [notin (l := (x, v) :: m) (fun d hd => by
            rcases List.mem_cons.1 hd with rfl | hd
            · exact hgt
            · exact Nat.lt_trans hgt (hx.1 d hd))] at this
          simp [Memory.read] at this
      subst hxy
      have hv : v = w := by simpa [Memory.read] using e x
      subst hv
      congr 1
      refine ih hx.2 hy.2 fun a => ?_
      have ea := e a
      by_cases ha : a = x
      · rw [ha, notin hx.1, notin hy.1]
      · simpa [Memory.read, ha] using ea

/-- The memory after reset is in canonical form. -/
theorem reset_mem_wf : State.reset.mem.wf := by simp [State.reset, Memory.wf]

end Sys2Proof.Machine
end

