-- ==== Sys2Proof/Laws/Ops.lean ====
section
/-! SUPPORT. For each shared operation, everything it can answer. -/

namespace Sys2Proof.Machine

/-- A raised failure is a next state in which only the response list and `cmdidx` differ (60_exceptions.md R120). -/
theorem raise_eq {K : Type} (f : Failure) (s : State K) : raise f s = .next (s.respond f.code false) := rfl

/-- What a key installation answers (44_engine_commands.md R100 to R102). -/
theorem installKey_cases {K : Type} (sp : Span) (put : Bytes8 → State K → State K) (s : State K) :
    (sp.len ≠ 8 ∧ installKey sp put s = raise .invalidKeyLength s) ∨
    (sp.len = 8 ∧ s.mem.readKey sp.base = none ∧ installKey sp put s = .refused .spanNotOwned) ∨
    (∃ k, sp.len = 8 ∧ s.mem.readKey sp.base = some k ∧
      installKey sp put s = .next ((put k s).respondOk false)) := by
  unfold installKey
  by_cases h : sp.len = 8
  · rw [if_neg (not_not.2 h)]
    cases hk : s.mem.readKey sp.base with
    | none => exact .inr (.inl ⟨h, rfl, rfl⟩)
    | some k => exact .inr (.inr ⟨k, h, rfl, rfl⟩)
  · exact .inl ⟨h, if_pos h⟩

/-- What a span transformation answers (44_engine_commands.md R100, R103, R104). -/
theorem transformSpan_cases {K : Type} (f : K → Bytes8 → List Byte → List Byte) (par : Parity) (sp : Span)
    (s : State K) :
    (s.slot par = none ∧ transformSpan f par sp s = raise .engineNotInitialized s) ∨
    (∃ v, s.slot par = some v ∧ s.mem.readSpan sp.base sp.len = none ∧
      transformSpan f par sp s = .refused .spanNotOwned) ∨
    (∃ v bs, s.slot par = some v ∧ s.mem.readSpan sp.base sp.len = some bs ∧
      transformSpan f par sp s = .next ((((s.loadChain).setMem
        (s.mem.writeSpan sp.base (f v.ks Bytes8.zero bs))).freeChain).respondOk false)) := by
  unfold transformSpan
  cases hv : s.slot par with
  | none => exact .inl ⟨rfl, rfl⟩
  | some v =>
    cases hb : s.mem.readSpan sp.base sp.len with
    | none => exact .inr (.inl ⟨v, rfl, rfl, by simp⟩)
    | some bs => exact .inr (.inr ⟨v, bs, rfl, rfl, by simp⟩)

/-- A query always answers, and changes nothing else (44_engine_commands.md R105). -/
theorem execQry_eq (par : Parity) (s : State) : execQry par s = .next (s.respondOk (s.ready par)) := rfl

/-- What one step does: idle, a host store, a reset, an illegal descriptor, or a command. -/
theorem step_cases (s : State) :
    (s.port = [] ∧ step s = .next s) ∨
    (∃ rest addr bs, s.port = .store addr bs :: rest ∧ step s = .next ((s.setPort rest).hostStore addr bs)) ∨
    (∃ rest, s.port = .reset :: rest ∧ step s = .next (s.setPort rest).hostReset) ∨
    (∃ rest d e, s.port = .descriptor d :: rest ∧ decode d = .error e ∧
      step s = raise .illegalCommand (s.setPort rest)) ∨
    (∃ rest d i, s.port = .descriptor d :: rest ∧ decode d = .ok i ∧ step s = exec i (s.setPort rest)) := by
  unfold step takeEvent
  match hp : s.port with
  | [] => exact .inl ⟨rfl, rfl⟩
  | .store addr bs :: rest => exact .inr (.inl ⟨rest, addr, bs, rfl, rfl⟩)
  | .reset :: rest => exact .inr (.inr (.inl ⟨rest, rfl, rfl⟩))
  | .descriptor d :: rest =>
    cases hd : decode d with
    | error e => exact .inr (.inr (.inr (.inl ⟨rest, d, e, rfl, hd, by simp [runEvent, runDescriptor, hd]⟩)))
    | ok i => exact .inr (.inr (.inr (.inr ⟨rest, d, i, rfl, hd, by simp [runEvent, runDescriptor, hd]⟩)))

/-! ### The five response words (30_encoding.md R61) -/

@[simp] theorem word_ok : responseWord statusOk false = 0x00000000 := by decide
@[simp] theorem word_ready : responseWord statusOk true = 0x00000100 := by decide
@[simp] theorem word_invalidKeyLength : responseWord Failure.invalidKeyLength.code false = 0x00000001 := by decide
@[simp] theorem word_engineNotInitialized : responseWord Failure.engineNotInitialized.code false = 0x00000002 := by
  decide
@[simp] theorem word_illegalCommand : responseWord Failure.illegalCommand.code false = 0x0000000F := by decide

/-- What a key installation answers, by the span read that decides it. -/
theorem installKey_readSpan {K : Type} (sp : Span) (put : Bytes8 → State K → State K) (s : State K) :
    (sp.len ≠ 8 ∧ installKey sp put s = raise .invalidKeyLength s) ∨
    (sp.len = 8 ∧ s.mem.readSpan sp.base 8 = none ∧ installKey sp put s = .refused .spanNotOwned) ∨
    (∃ k, sp.len = 8 ∧ s.mem.readSpan sp.base 8 = some k.toList ∧
      installKey sp put s = .next ((put k s).respondOk false)) := by
  rcases installKey_cases sp put s with h | ⟨h, hn, e⟩ | ⟨k, h, hk, e⟩
  · exact .inl h
  · refine .inr (.inl ⟨h, ?_, e⟩)
    cases hb : s.mem.readSpan sp.base 8 with
    | none => rfl
    | some bs =>
      obtain ⟨b, hb'⟩ := Bytes8.ofList?_of_length (readSpan_length hb)
      simp [Memory.readKey, hb, hb'] at hn
  · exact .inr (.inr ⟨k, h, readKey_eq_some.1 hk, e⟩)

/-- Everything a command can do: fail on the key length, stop over an unowned span, install, fail on an
uninitialised parity, transform the span, or answer a query. -/
theorem exec_cases (i : Instr) (s : State) :
    (∃ sp, (∃ mode, i = .init mode sp ∨ ∃ p, i = .initp p mode sp) ∧ sp.len ≠ 8 ∧
      exec i s = raise .invalidKeyLength s) ∨
    (∃ sp, (∃ mode, i = .init mode sp ∨ ∃ p, i = .initp p mode sp) ∧ sp.len = 8 ∧
      s.mem.readSpan sp.base 8 = none ∧ exec i s = .refused .spanNotOwned) ∨
    (∃ mode sp k, i = .init mode sp ∧ sp.len = 8 ∧ s.mem.readSpan sp.base 8 = some (Bytes8.toList k) ∧
      exec i s = .next (((s.setSlot .even (slotFor Config.cipher mode k)).setSlot .odd
        (slotFor Config.cipher mode k)).respondOk false)) ∨
    (∃ p mode sp k, i = .initp p mode sp ∧ sp.len = 8 ∧ s.mem.readSpan sp.base 8 = some (Bytes8.toList k) ∧
      exec i s = .next ((s.setSlot p (slotFor Config.cipher mode k)).respondOk false)) ∨
    (∃ p sp, (i = .enc p sp ∨ i = .dec p sp) ∧ s.slot p = none ∧ exec i s = raise .engineNotInitialized s) ∨
    (∃ p sp v, (i = .enc p sp ∨ i = .dec p sp) ∧ s.slot p = some v ∧ s.mem.readSpan sp.base sp.len = none ∧
      exec i s = .refused .spanNotOwned) ∨
    (∃ p sp v bs out, (i = .enc p sp ∧ out = chainEnc Config.cipher v.ks bs ∨
        i = .dec p sp ∧ out = chainDec Config.cipher v.ks bs) ∧
      s.slot p = some v ∧ s.mem.readSpan sp.base sp.len = some bs ∧
      exec i s = .next ((((s.loadChain).setMem (s.mem.writeSpan sp.base out)).freeChain).respondOk false)) ∨
    (∃ p, i = .qry p ∧ exec i s = .next (s.respondOk (s.ready p))) := by
  cases i with
  | init m sp =>
    rcases installKey_readSpan sp (fun k t => (t.setSlot .even (slotFor Config.cipher m k)).setSlot .odd
      (slotFor Config.cipher m k)) s with ⟨h, e⟩ | ⟨h, hn, e⟩ | ⟨k, h, hk, e⟩
    · exact .inl ⟨sp, ⟨m, .inl rfl⟩, h, e⟩
    · exact .inr (.inl ⟨sp, ⟨m, .inl rfl⟩, h, hn, e⟩)
    · exact .inr (.inr (.inl ⟨m, sp, k, rfl, h, hk, e⟩))
  | initp p m sp =>
    rcases installKey_readSpan sp (fun k t => t.setSlot p (slotFor Config.cipher m k)) s
      with ⟨h, e⟩ | ⟨h, hn, e⟩ | ⟨k, h, hk, e⟩
    · exact .inl ⟨sp, ⟨m, .inr ⟨p, rfl⟩⟩, h, e⟩
    · exact .inr (.inl ⟨sp, ⟨m, .inr ⟨p, rfl⟩⟩, h, hn, e⟩)
    · exact .inr (.inr (.inr (.inl ⟨p, m, sp, k, rfl, h, hk, e⟩)))
  | enc p sp =>
    rcases transformSpan_cases (chainEncFrom Config.cipher) p sp s with ⟨h, e⟩ | ⟨v, h, hn, e⟩ | ⟨v, bs, h, hb, e⟩
    · exact .inr (.inr (.inr (.inr (.inl ⟨p, sp, .inl rfl, h, e⟩))))
    · exact .inr (.inr (.inr (.inr (.inr (.inl ⟨p, sp, v, .inl rfl, h, hn, e⟩)))))
    · exact .inr (.inr (.inr (.inr (.inr (.inr (.inl ⟨p, sp, v, bs, _, .inl ⟨rfl, rfl⟩, h, hb, e⟩))))))
  | dec p sp =>
    rcases transformSpan_cases (chainDecFrom Config.cipher) p sp s with ⟨h, e⟩ | ⟨v, h, hn, e⟩ | ⟨v, bs, h, hb, e⟩
    · exact .inr (.inr (.inr (.inr (.inl ⟨p, sp, .inr rfl, h, e⟩))))
    · exact .inr (.inr (.inr (.inr (.inr (.inl ⟨p, sp, v, .inr rfl, h, hn, e⟩)))))
    · exact .inr (.inr (.inr (.inr (.inr (.inr (.inl ⟨p, sp, v, bs, _, .inr ⟨rfl, rfl⟩, h, hb, e⟩))))))
  | qry p => exact .inr (.inr (.inr (.inr (.inr (.inr (.inr ⟨p, rfl, rfl⟩))))))

end Sys2Proof.Machine
end

