-- ==== Sys2Proof/Laws/PerInstr.lean ====
section
/-! SUPPORT. The per-instruction family `Encoding`: the fields of a well-formed command's descriptor are the
ones 30_encoding.md R51 to R55 give it. -/

namespace Sys2Proof.Laws

/-- Opcode, parity bit and mode bit of a command (30_encoding.md R53 to R55); an unused bit is zero (R56). -/
def Encoding.bits : Instr → Nat × Nat × Nat
  | .init mode _ => (0x01, 0, modeBit mode)
  | .initp par mode _ => (0x02, parityBit par, modeBit mode)
  | .enc par _ => (0x03, parityBit par, 0)
  | .dec par _ => (0x04, parityBit par, 0)
  | .qry par => (0x05, parityBit par, 0)

/-- The span of a command; `QRY` has none and its two words are zero (30_encoding.md R52). -/
def Encoding.span : Instr → Span
  | .init _ sp => sp
  | .initp _ _ sp => sp
  | .enc _ sp => sp
  | .dec _ sp => sp
  | .qry _ => ⟨0, 0⟩

/-- Every field of the descriptor of a well-formed command. -/
def Encoding.Statement (i : Instr) : Prop :=
  i.WellFormed →
    descOpc (encode i) = (Encoding.bits i).1 ∧ descPar (encode i) = (Encoding.bits i).2.1 ∧
    descMode (encode i) = (Encoding.bits i).2.2 ∧ descRsv0 (encode i) = 0 ∧
    descBase (encode i) = (Encoding.span i).base ∧ descLen (encode i) = (Encoding.span i).len

theorem Encoding.init (mode : Mode) (sp : Span) : Encoding.Statement (.init mode sp) := fun h => by
  have h := of_decide_eq_true h
  exact descOfWords_fields h.2 h.1 (by decide) (by decide) (modeBit_lt mode)

theorem Encoding.initp (par : Parity) (mode : Mode) (sp : Span) : Encoding.Statement (.initp par mode sp) := fun h => by
  have h := of_decide_eq_true h
  exact descOfWords_fields h.2 h.1 (by decide) (parityBit_lt par) (modeBit_lt mode)

theorem Encoding.enc (par : Parity) (sp : Span) : Encoding.Statement (.enc par sp) := fun h => by
  have h := of_decide_eq_true h
  exact descOfWords_fields h.2 h.1 (by decide) (parityBit_lt par) (by decide)

theorem Encoding.dec (par : Parity) (sp : Span) : Encoding.Statement (.dec par sp) := fun h => by
  have h := of_decide_eq_true h
  exact descOfWords_fields h.2 h.1 (by decide) (parityBit_lt par) (by decide)

theorem Encoding.qry (par : Parity) : Encoding.Statement (.qry par) := fun _ =>
  descOfWords_fields (by decide) (by decide) (by decide) (parityBit_lt par) (by decide)

end Sys2Proof.Laws
end

