-- ==== Sys2Proof/Tests/TestInst.lean ====
section
/-! SUPPORT. `TESTINST` of 95_test_vectors.md section 2: the spec's test-only instantiation of the open
parameters. It is not the cipher, and no definition of the model uses it. -/

namespace Sys2Proof.Tests

/-- `x -> rotl1(x) XOR 0x63`. -/
def sub (x : Byte) : Byte := x.rotateLeft 1 ^^^ 0x63

/-- Its inverse, `rotr1(x XOR 0x63)`. -/
def subInv (x : Byte) : Byte := (x ^^^ 0x63).rotateRight 1

/-- The byte permutation of a round: `v[i] = t[(i + 1) mod 8]`. -/
def turn (t : Bytes8) : Bytes8 := ⟨t.b1, t.b2, t.b3, t.b4, t.b5, t.b6, t.b7, t.b0⟩

/-- Its inverse: `t[i] = v[(i + 7) mod 8]`. -/
def turnBack (v : Bytes8) : Bytes8 := ⟨v.b7, v.b0, v.b1, v.b2, v.b3, v.b4, v.b5, v.b6⟩

/-- Round 0 mixes `s[i]`, round 1 mixes `s[(i + 1) mod 8]`. -/
def testEnc (s b : Bytes8) : Bytes8 :=
  let r0 := turn ((b.xor s).map sub)
  turn ((r0.xor (turn s)).map sub)

def testDec (s b : Bytes8) : Bytes8 :=
  let r1 := ((turnBack b).map subInv).xor (turn s)
  ((turnBack r1).map subInv).xor s

/-- `TESTINST`: `KS = Bytes8`, `Expand(k) = k`. -/
abbrev testInst : Cipher where
  KS := Bytes8
  expand k := k
  erMask := ⟨0xC0, 0xC0, 0xC0, 0xC0, 0xC0, 0xC0, 0xC0, 0xC0⟩
  erVal := ⟨0x40, 0x40, 0x40, 0x40, 0x40, 0x40, 0x40, 0x40⟩
  blockEnc := testEnc
  blockDec := testDec

theorem subInv_sub : ∀ x : Byte, subInv (sub x) = x := by decide
theorem sub_subInv : ∀ x : Byte, sub (subInv x) = x := by decide

/-- There are finitely many byte vectors of length 8. -/
theorem finite_bytes8 : Finite Bytes8 :=
  Finite.of_injective (fun a : Bytes8 => (a.b0, a.b1, a.b2, a.b3, a.b4, a.b5, a.b6, a.b7)) fun a b h => by
    cases a; cases b; simpa using h

/-- The laws of the open parameters are those of an instance the spec itself gives. -/
theorem testInst_lawful : testInst.Lawful where
  fixed_size := finite_bytes8
  erVal_in_mask := by decide
  dec_enc k b := by
    simp [testDec, testEnc, turn, turnBack, Bytes8.map, Bytes8.xor, Bytes8.zipWith, subInv_sub]
  enc_dec k b := by
    simp [testDec, testEnc, turn, turnBack, Bytes8.map, Bytes8.xor, Bytes8.zipWith, sub_subInv]

end Sys2Proof.Tests
end

