-- ==== Sys2Proof/Tests/Slice0.lean ====
section
/-! SUPPORT. The model's own tests. Expected values come from 95_test_vectors.md and 30_encoding.md section 6,
under `TESTINST` where a number depends on the cipher. -/

namespace Sys2Proof.Tests

open Sys2Proof.Machine

/-! ### Well-formedness: a term each check refuses, and the largest it accepts -/

theorem test_wf_init_base : (Instr.init .normal ⟨2 ^ 32, 8⟩).wf = false := by decide
theorem test_wf_init_len : (Instr.init .normal ⟨0, 2 ^ 32⟩).wf = false := by decide
theorem test_wf_initp_base : (Instr.initp .odd .normal ⟨2 ^ 32, 8⟩).wf = false := by decide
theorem test_wf_initp_len : (Instr.initp .odd .normal ⟨0, 2 ^ 32⟩).wf = false := by decide
theorem test_wf_enc_base : (Instr.enc .even ⟨2 ^ 32, 8⟩).wf = false := by decide
theorem test_wf_enc_len : (Instr.enc .even ⟨0, 2 ^ 32⟩).wf = false := by decide
theorem test_wf_dec_base : (Instr.dec .even ⟨2 ^ 32, 8⟩).wf = false := by decide
theorem test_wf_dec_len : (Instr.dec .even ⟨0, 2 ^ 32⟩).wf = false := by decide
theorem test_wf_largest : (Instr.enc .odd ⟨2 ^ 32 - 1, 2 ^ 32 - 1⟩).wf = true := by decide

/-! ### Decoding: the words of 95_test_vectors.md section 3.6, `W2`, `W1`, `W0` written together -/

theorem test_decode_init : decode 0x000000080000010000000001#96 = .ok (.init .normal ⟨0x100, 8⟩) := by decide
theorem test_decode_init_reduced : decode 0x000000080000010000000201#96 = .ok (.init .reduced ⟨0x100, 8⟩) := by decide
theorem test_decode_initp : decode 0x000000080000010000000202#96 = .ok (.initp .even .reduced ⟨0x100, 8⟩) := by decide
theorem test_decode_initp_nine : decode 0x000000090000010800000302#96 = .ok (.initp .odd .reduced ⟨0x108, 9⟩) := by decide
theorem test_decode_enc : decode 0x000000100000020000000003#96 = .ok (.enc .even ⟨0x200, 16⟩) := by decide
theorem test_decode_enc_largest : decode 0xFFFFFFFF0000000000000103#96 = .ok (.enc .odd ⟨0, 0xFFFFFFFF⟩) := by decide
theorem test_decode_dec : decode 0x000000000000020000000004#96 = .ok (.dec .even ⟨0x200, 0⟩) := by decide
theorem test_decode_dec_wrap : decode 0x00000008FFFFFFFC00000104#96 = .ok (.dec .odd ⟨0xFFFFFFFC, 8⟩) := by decide
theorem test_decode_qry_even : decode 0x000000000000000000000005#96 = .ok (.qry .even) := by decide
theorem test_decode_qry_odd : decode 0x000000000000000000000105#96 = .ok (.qry .odd) := by decide

theorem test_illegal_opcodes : decode 0x000000000000000000000000#96 = .error .reservedOpcode ∧
    decode 0x000000080000010000000006#96 = .error .reservedOpcode ∧
    decode 0x0000000000000000000000FF#96 = .error .reservedOpcode := by decide
theorem test_illegal_par : decode 0x000000080000010000000101#96 = .error .unusedPar := by decide
theorem test_illegal_mode : decode 0x0000000D0000020000000203#96 = .error .unusedMode ∧
    decode 0x0000000D0000020000000304#96 = .error .unusedMode ∧
    decode 0x000000000000000000000205#96 = .error .unusedMode := by decide
theorem test_illegal_reserved : decode 0x0000000D0000020000000403#96 = .error .reservedBits ∧
    decode 0x000000080000010080000002#96 = .error .reservedBits := by decide
theorem test_illegal_span : decode 0x000000000000000100000005#96 = .error .unusedSpan ∧
    decode 0x000000010000000000000105#96 = .error .unusedSpan := by decide

/-! ### The worked encodings of 30_encoding.md section 6, with their 12 bytes -/

theorem test_bytes_init : descToBytes (encode (.init .reduced ⟨0x100, 8⟩)) =
    [0x01, 0x02, 0, 0, 0x00, 0x01, 0, 0, 0x08, 0, 0, 0] := by decide
theorem test_bytes_initp : descToBytes (encode (.initp .even .reduced ⟨0x108, 8⟩)) =
    [0x02, 0x02, 0, 0, 0x08, 0x01, 0, 0, 0x08, 0, 0, 0] := by decide
theorem test_bytes_enc : descToBytes (encode (.enc .odd ⟨0x200, 13⟩)) =
    [0x03, 0x01, 0, 0, 0x00, 0x02, 0, 0, 0x0D, 0, 0, 0] := by decide
theorem test_bytes_dec : descToBytes (encode (.dec .even ⟨0x200, 0⟩)) =
    [0x04, 0x00, 0, 0, 0x00, 0x02, 0, 0, 0, 0, 0, 0] := by decide
theorem test_bytes_qry : descToBytes (encode (.qry .odd)) = [0x05, 0x01, 0, 0, 0, 0, 0, 0, 0, 0, 0, 0] := by decide
theorem test_desc_of_bytes : descOfBytes [0x03, 0x01, 0, 0, 0x00, 0x02, 0, 0, 0x0D, 0, 0, 0, 0x55] =
    some (0x0000000D0000020000000103#96, [0x55]) := by decide
theorem test_response_bytes : responseToBytes (responseWord statusOk true) = [0x00, 0x01, 0x00, 0x00] := by decide

/-! ### The table word interface: bit 0 the least significant of `W0` -/

theorem test_table_init : decodeTableWord 32 0x00000201 = some (.init .reduced ⟨0, 0⟩) := by decide
theorem test_table_qry : decodeTableWord 96 0x105 = some (.qry .odd) := by decide
theorem test_table_illegal : decodeTableWord 32 0x00000403 = none := by decide

/-! ### The assembler lines of 95_test_vectors.md section 4 -/

theorem test_asm_initp : parseLine "INITP ODD, NORMAL, 0x100, 8    ; 00000008 00000100 00000102".toList =
    some (.command (.initp .odd .normal ⟨0x100, 8⟩)) := by decide
theorem test_asm_enc : parseLine "ENC   EVEN, 0xFFFFFFFC, 8".toList = some (.command (.enc .even ⟨0xFFFFFFFC, 8⟩)) := by
  decide
theorem test_asm_qry : parseLine "QRY   ODD".toList = some (.command (.qry .odd)) := by decide
theorem test_asm_desc : parseLine ".desc 00000010, 00000200, 00000403".toList =
    some (.desc 0x000000100000020000000403#96) := by decide
theorem test_asm_bytes : parseLine ".bytes 0x200: 00 01 0A".toList = some (.bytes 0x200 [0x00, 0x01, 0x0A]) := by decide
theorem test_asm_too_wide : parseLine "ENC EVEN, 4294967296, 8".toList = none := by decide
theorem test_asm_text : parseLine (asmText (.init .reduced ⟨0xFFFFFFFF, 0xFFFFFFFF⟩)) =
    some (.command (.init .reduced ⟨0xFFFFFFFF, 0xFFFFFFFF⟩)) := by decide

/-! ### Functions under `TESTINST` (95_test_vectors.md sections 3.1 to 3.5) -/

def ke : Bytes8 := ⟨0xC0, 0xB1, 0xF0, 0x61, 0xA6, 0xED, 0x71, 0x04⟩
def ko : Bytes8 := ⟨0xB2, 0x92, 0xD3, 0x17, 0x7C, 0xCC, 0xCE, 0x16⟩
def ker : Bytes8 := ⟨0x40, 0x71, 0x70, 0x61, 0x66, 0x6D, 0x71, 0x44⟩
/-- The first `n` bytes of `P24`: byte `i` equal to `i`. -/
def p24 (n : Nat) : List Byte := (List.range n).map (BitVec.ofNat 8)

theorem test_reduce_ke : reduce testInst ke = ker := by decide
theorem test_reduce_ones : reduce testInst ⟨0xFF, 0xFF, 0xFF, 0xFF, 0xFF, 0xFF, 0xFF, 0xFF⟩ =
    ⟨0x7F, 0x7F, 0x7F, 0x7F, 0x7F, 0x7F, 0x7F, 0x7F⟩ := by decide
theorem test_reduce_flipped : reduce testInst ⟨0x40, 0x31, 0x70, 0xE1, 0x26, 0x6D, 0xF1, 0x84⟩ = ker := by decide
theorem test_install_normal : install testInst .normal ko = ko := by decide
theorem test_install_reduced : install testInst .reduced ko = ⟨0x72, 0x52, 0x53, 0x57, 0x7C, 0x4C, 0x4E, 0x56⟩ := by decide
theorem test_block_enc : testInst.blockEnc ko ⟨0x00, 0x11, 0x22, 0x33, 0x44, 0x55, 0x66, 0x77⟩ =
    ⟨0xC5, 0x1B, 0xBD, 0x5A, 0x9A, 0x0C, 0x0A, 0x8E⟩ := by decide
theorem test_block_dec : testInst.blockDec ko Bytes8.zero =
    ⟨0x82, 0xB2, 0x53, 0xF5, 0x2B, 0xC3, 0xC0, 0x74⟩ := by decide

theorem test_chain_empty : chainEnc testInst ko [] = [] := by decide
theorem test_chain_seven : chainEnc testInst ko (p24 7) = [0x4D, 0xD6, 0xAE, 0x0C, 0x07, 0xD4, 0x0C] := by decide
theorem test_chain_eight : chainEnc testInst ko (p24 8) =
    [0x45, 0xDB, 0xBC, 0x1B, 0x1B, 0xCD, 0x0A, 0xCE] := by decide
theorem test_chain_nine : chainEnc testInst ko (p24 9) =
    [0x45, 0xDB, 0xBC, 0x1B, 0x1B, 0xCD, 0x0A, 0xCE, 0x4D] := by decide
theorem test_chain_twenty_three : chainEnc testInst ko (p24 23) =
    [0x45, 0xDB, 0xBC, 0x1B, 0x1B, 0xCD, 0x0A, 0xCE, 0x97, 0x97, 0xF0, 0x0C, 0x13, 0xD6, 0x3F, 0x81,
     0x87, 0x86, 0xE2, 0x1F, 0x07, 0xC3, 0x29] := by decide
theorem test_chain_dec_sixteen : chainDec testInst ko (p24 16) =
    [0x03, 0x73, 0x53, 0xB5, 0xAB, 0x03, 0xC1, 0x35, 0x01, 0x70, 0x53, 0xB4, 0xAD, 0x04, 0xC5, 0x30] := by decide
theorem test_chain_dec_thirteen : chainDec testInst ko (p24 13) =
    [0x03, 0x73, 0x53, 0xB5, 0xAB, 0x03, 0xC1, 0x35, 0x08, 0x08, 0x08, 0x08, 0x08] := by decide
theorem test_chain_dec_five : chainDec testInst ko (p24 5) = [0x4D, 0xD6, 0xAE, 0x0C, 0x07] := by decide
theorem test_chain_wrong_key : chainDec testInst ke (chainEnc testInst ko (p24 13)) =
    [0x4B, 0xB3, 0xB0, 0x4E, 0xB3, 0xB4, 0x66, 0x1C, 0x08, 0x09, 0x0A, 0x0B, 0x0C] := by decide

/-- The same bytes by the engine's walk in place, over the top of memory (R36, program 4). -/
theorem test_walk_wraps :
    (walkSpan testInst ke .scramble ⟨0xFFFFFFFC, 8⟩
      (Memory.writeSpan [] 0xFFFFFFFC [0xA0, 0xA1, 0xA2, 0xA3, 0xA4, 0xA5, 0xA6, 0xA7])).map Walk.mem =
    some (Memory.writeSpan [] 0xFFFFFFFC [0x0D, 0x6C, 0xE0, 0x5F, 0x18, 0x23, 0xA5, 0x86]) := by decide

/-! ### Commands under `TESTINST` (the examples of 44_engine_commands.md) -/

/-- The memory of an answer. -/
def memOf {K : Type} : Result K → Option Memory
  | .next s => some s.mem
  | _ => none
/-- The last response word of an answer. -/
def wordOf {K : Type} : Result K → Option (BitVec 32)
  | .next s => s.resp.getLast?
  | _ => none
/-- The slot of an answer. -/
def slotOf {K : Type} (p : Parity) : Result K → Option (Option (Slot K))
  | .next s => some (s.slot p)
  | _ => none
/-- An engine with these bytes placed at these addresses. -/
def withBytes {K : Type} (s : State K) (addr : Nat) (bs : List Byte) : State K := s.hostStore addr bs
/-- The state after reset (10_state.md R23) of an engine whose cipher is `TESTINST`. -/
def resetTest : State testInst.KS := ⟨none, none, Bytes8.zero, [], [], 0, [], 0⟩
/-- ODD READY with `KO` under `TESTINST`. -/
def oddKo : State testInst.KS := { resetTest with odd := some ⟨ko, ko⟩ }

theorem test_init_reduced :
    slotOf .even (execInitWith testInst .reduced ⟨0x100, 8⟩ (withBytes resetTest 0x100 ke.toList)) =
      some (some ⟨ker, ke⟩) ∧
    slotOf .odd (execInitWith testInst .reduced ⟨0x100, 8⟩ (withBytes resetTest 0x100 ke.toList)) =
      some (some ⟨ker, ke⟩) := by decide
theorem test_init_seven : wordOf (execInitWith testInst .normal ⟨0x100, 7⟩ oddKo) = some 0x00000001 ∧
    slotOf .odd (execInitWith testInst .normal ⟨0x100, 7⟩ oddKo) = some (some ⟨ko, ko⟩) := by decide
theorem test_initp_odd :
    slotOf .odd (execInitpWith testInst .odd .normal ⟨0x108, 8⟩ (withBytes resetTest 0x108 ko.toList)) =
      some (some ⟨ko, ko⟩) ∧
    slotOf .even (execInitpWith testInst .odd .normal ⟨0x108, 8⟩ (withBytes resetTest 0x108 ko.toList)) =
      some none := by decide
theorem test_initp_nine : wordOf (execInitpWith testInst .odd .reduced ⟨0x108, 9⟩ resetTest) = some 0x00000001 := by decide
theorem test_enc_thirteen :
    memOf (execEncWith testInst .odd ⟨0x200, 13⟩ (withBytes oddKo 0x200 (p24 13))) =
      some (Memory.writeSpan [] 0x200
        [0x45, 0xDB, 0xBC, 0x1B, 0x1B, 0xCD, 0x0A, 0xCE, 0x4D, 0xD2, 0xB6, 0x10, 0x17]) := by decide
theorem test_enc_not_ready : wordOf (execEncWith testInst .even ⟨0x200, 0⟩ oddKo) = some 0x00000002 := by decide
theorem test_dec_thirteen :
    memOf (execDecWith testInst .odd ⟨0x200, 13⟩ (withBytes oddKo 0x200
        [0x45, 0xDB, 0xBC, 0x1B, 0x1B, 0xCD, 0x0A, 0xCE, 0x4D, 0xD2, 0xB6, 0x10, 0x17])) =
      some (Memory.writeSpan [] 0x200 (p24 13)) := by decide
theorem test_dec_short_is_enc :
    memOf (execDecWith testInst .odd ⟨0x200, 5⟩ (withBytes oddKo 0x200 (p24 5))) =
      some (Memory.writeSpan [] 0x200 [0x4D, 0xD6, 0xAE, 0x0C, 0x07]) := by decide
theorem test_qry_fresh : wordOf (execQry .odd .reset) = some 0x00000000 := by decide
/-- ODD READY with `KO` under the hardware's cipher. -/
def oddHardware : State := { State.reset with odd := some ⟨Config.cipher.expand ko, ko⟩ }
theorem test_qry_ready : wordOf (execQry .odd oddHardware) = some 0x00000100 ∧
    wordOf (execQry .even oddHardware) = some 0x00000000 := by decide

/-- The row `INIT` of the opcode table, its words above `W0` zero, is the first command after reset. -/
theorem test_step_first : wordOf (step (State.reset.withFetchWord 32 0x00000001)) = some 0x00000001 := by decide
theorem test_step_illegal : wordOf (step (State.reset.withFetchWord 32 0x00000000)) = some 0x0000000F := by decide

end Sys2Proof.Tests
end

