-- ==== Sys2Proof/Tests/Witnesses.lean ====
section
/-! SUPPORT. For every statement of Certificates/Slice0/Obligations.lean that has hypotheses, a concrete state
and operands that meet all of them together; one per clause, at a boundary where the clause has a range. -/

namespace Sys2Proof.Tests

open Sys2Proof.Machine

/-! ### States -/

/-- ODD holds the hardware cipher's schedule of `KO` (NORMAL), EVEN nothing. -/
def oddReady : State := { State.reset with odd := some ⟨install Config.cipher .normal ko, ko⟩ }
/-- 16 bytes over the top of host memory: addresses 0xFFFFFFF8 to 0xFFFFFFFF and 0 to 7. -/
def wrapBytes (s : State) : State := { s with mem := Memory.writeSpan [] 0xFFFFFFF8 (p24 16) }
/-- A key span that wraps: `KO` at 0xFFFFFFFC. -/
def keyAtTop (s : State) : State := { s with mem := Memory.writeSpan [] 0xFFFFFFFC ko.toList }
/-- The port with these events waiting. -/
def sending (es : List HostEvent) (s : State) : State := { s with port := es }

abbrev encWrap : Instr := .enc .odd ⟨0xFFFFFFF8, 16⟩
abbrev decWrap : Instr := .dec .odd ⟨0xFFFFFFF8, 16⟩

theorem wit_span_wf : (⟨0xFFFFFFF8, 16⟩ : Span).WellFormed := by decide
theorem wit_holds_payload : (wrapBytes oddReady).holds ⟨0xFFFFFFF8, 16⟩ (p24 16) := by unfold State.holds; decide
theorem wit_holds_residue : (wrapBytes oddReady).holds ⟨0xFFFFFFF8, 15⟩ (p24 15) := by unfold State.holds; decide
theorem wit_holds_short : (wrapBytes oddReady).holds ⟨0xFFFFFFF8, 7⟩ (p24 7) := by unfold State.holds; decide
theorem wit_holds_empty : (wrapBytes oddReady).holds ⟨0xFFFFFFF8, 0⟩ [] := by unfold State.holds; decide
theorem wit_holds_key : (keyAtTop oddReady).holds ⟨0xFFFFFFFC, 8⟩ ko.toList := by unfold State.holds; decide
theorem wit_ready : oddReady.ready .odd = true ∧ oddReady.ready .even = false := ⟨rfl, rfl⟩

/-- Commands that complete in these states. -/
theorem wit_enc_next : ∃ t, exec encWrap (wrapBytes oddReady) = .next t := ⟨_, rfl⟩
theorem wit_dec_next : ∃ t, exec decWrap (wrapBytes oddReady) = .next t := ⟨_, rfl⟩
theorem wit_init_next : ∃ t, exec (.init .reduced ⟨0xFFFFFFFC, 8⟩) (keyAtTop oddReady) = .next t := ⟨_, rfl⟩
theorem wit_initp_next : ∃ t, exec (.initp .even .normal ⟨0xFFFFFFFC, 8⟩) (keyAtTop oddReady) = .next t := ⟨_, rfl⟩
theorem wit_qry_next : ∃ t, exec (.qry .odd) oddReady = .next t := ⟨_, rfl⟩

theorem wit_oddReady_inv : (wrapBytes oddReady).Inv where
  mem_wf := by decide
  slots := by
    intro p v h
    cases p with
    | even => cases h
    | odd => cases h; exact ⟨.normal, rfl⟩
  one_response_each := rfl
  responses_legal := by intro w h; cases h

/-! ### Encoding -/

theorem wit_DecodeInvertsEncode : (Instr.init .reduced ⟨2 ^ 32 - 1, 2 ^ 32 - 1⟩).WellFormed ∧
    (Instr.initp .odd .reduced ⟨0, 0⟩).WellFormed ∧ (Instr.enc .odd ⟨2 ^ 32 - 1, 0⟩).WellFormed ∧
    (Instr.dec .even ⟨0, 2 ^ 32 - 1⟩).WellFormed ∧ (Instr.qry .odd).WellFormed := by decide
theorem wit_EncodeInvertsDecode :
    decode 0xFFFFFFFFFFFFFFFF00000103#96 = .ok (.enc .odd ⟨0xFFFFFFFF, 0xFFFFFFFF⟩) := by decide
theorem wit_AssemblerLineSpellsItsCommand : (Instr.dec .odd ⟨2 ^ 32 - 1, 2 ^ 32 - 1⟩).WellFormed := by decide

/-! ### Steps and events -/

theorem wit_StepRunsTheDecodedCommand :
    (sending [.descriptor 0x105#96] oddReady).port = .descriptor 0x105#96 :: [] ∧
      decode 0x105#96 = .ok (.qry .odd) := by decide
theorem wit_PlacedWordRunsNext : decodeTableWord 32 0x00000001 = some (.init .normal ⟨0, 0⟩) := by decide
theorem wit_IllegalDescriptorHasNoEffect :
    (sending [.descriptor 0#96] oddReady).port = .descriptor 0#96 :: [] ∧ decode 0#96 = .error .reservedOpcode := by
  decide
theorem wit_IdleEngineKeepsItsState : oddReady.runEnded := rfl
theorem wit_ResetEventUninitialises : (sending [.reset, .reset] oddReady).port = .reset :: [.reset] := rfl
theorem wit_HostStoreIsVisible :
    (sending [.store 0xFFFFFFFF [1, 2]] oddReady).port = .store 0xFFFFFFFF [1, 2] :: [] ∧
      [(1 : Byte), 2].length ≤ 2 ^ 32 := by decide
theorem wit_RunAnswersEveryDescriptor :
    (sending [.descriptor 0#96, .descriptor 0x105#96] oddReady).port = [0#96, 0x105#96].map .descriptor ∧
      ∃ t, Sys2Proof.core.run [0#96, 0x105#96].length (sending [.descriptor 0#96, .descriptor 0x105#96] oddReady) =
        .next t := ⟨rfl, _, rfl⟩

/-! ### Commands -/

theorem wit_InitInstallsBothSlots_fails : (⟨0x100, 9⟩ : Span).len ≠ 8 := by decide
theorem wit_InitInstallsBothSlots : (⟨0xFFFFFFFC, 8⟩ : Span).len = 8 ∧
    (keyAtTop oddReady).holds ⟨0xFFFFFFFC, 8⟩ ko.toList := ⟨rfl, wit_holds_key⟩
theorem wit_InitpInstallsOneSlot : (⟨0xFFFFFFFC, 8⟩ : Span).len = 8 ∧
    (keyAtTop State.reset).holds ⟨0xFFFFFFFC, 8⟩ ko.toList := ⟨rfl, by unfold State.holds; decide⟩
theorem wit_EncScramblesTheSpan_fails : (wrapBytes oddReady).ready .even = false := rfl
theorem wit_EncScramblesTheSpan : (⟨0xFFFFFFF8, 16⟩ : Span).WellFormed ∧
    (wrapBytes oddReady).slot .odd = some ⟨install Config.cipher .normal ko, ko⟩ ∧
    (wrapBytes oddReady).holds ⟨0xFFFFFFF8, 16⟩ (p24 16) := ⟨by decide, rfl, wit_holds_payload⟩
theorem wit_DecDescramblesTheSpan : (⟨0xFFFFFFF8, 7⟩ : Span).WellFormed ∧
    (wrapBytes oddReady).slot .odd = some ⟨install Config.cipher .normal ko, ko⟩ ∧
    (wrapBytes oddReady).holds ⟨0xFFFFFFF8, 7⟩ (p24 7) := ⟨by decide, rfl, wit_holds_short⟩
theorem wit_EmptyPayloadChangesNoByte : Instr.enc .odd ⟨5, 0⟩ = .enc .odd ⟨5, 0⟩ ∧ oddReady.ready .odd = true ∧
    oddReady.ready .even = false := ⟨rfl, rfl, rfl⟩
theorem wit_InitIsTwoInitp_fails : (⟨0x100, 7⟩ : Span).len ≠ 8 := by decide
theorem wit_InitIsTwoInitp : (⟨0xFFFFFFFC, 8⟩ : Span).len = 8 ∧
    ∃ t, exec (.init .reduced ⟨0xFFFFFFFC, 8⟩) (keyAtTop oddReady) = .next t := ⟨rfl, wit_init_next⟩
theorem wit_InstallationIsIdempotent : payloadOf (.initp .even .normal ⟨0xFFFFFFFC, 8⟩) = none ∧
    ∃ t, exec (.initp .even .normal ⟨0xFFFFFFFC, 8⟩) (keyAtTop oddReady) = .next t := ⟨rfl, wit_initp_next⟩

/-! ### Failures -/

theorem wit_InvalidKeyLengthCause : ∃ t, runDescriptor 0x000000090000010800000302#96 oddReady = .next t ∧
    t.resp = oddReady.resp ++ [0x00000001] := ⟨_, rfl, by decide⟩
theorem wit_EngineNotInitializedCause : ∃ t, runDescriptor 0x000000000000020000000004#96 oddReady = .next t ∧
    t.resp = oddReady.resp ++ [0x00000002] := ⟨_, rfl, by decide⟩
theorem wit_FailedCommandHasNoEffect : ∃ t, runDescriptor 0#96 oddReady = .next t ∧
    t.resp = oddReady.resp ++ [0x0000000F] ∧ (0x0000000F#32 ≠ 0x00000000) ∧ (0x0000000F#32 ≠ 0x00000100) :=
  ⟨_, rfl, by decide, by decide, by decide⟩
theorem wit_EveryDescriptorGetsOneResponse : ∀ i sp, decode 0x00000010FFFFFFF800000103#96 = .ok i →
    touchedSpan (wrapBytes oddReady) i = some sp → (wrapBytes oddReady).owns sp := by
  intro i sp hi ht
  rw [show decode 0x00000010FFFFFFF800000103#96 = .ok encWrap by decide] at hi
  cases hi
  cases ht
  rintro a ⟨i, hi, rfl⟩
  rw [wit_holds_payload.2 i hi]
  simp only [p24] at *
  simp [hi]
theorem wit_RefusedExactlyOverUnownedSpans :
    exec encWrap oddReady = .refused .spanNotOwned ∧
    exec (.init .normal ⟨0x100, 8⟩) oddReady = .refused .spanNotOwned := ⟨rfl, rfl⟩

/-! ### Frames and rules over a step -/

theorem wit_MemoryFrame : (∃ t, exec encWrap (wrapBytes oddReady) = .next t) ∧
    payloadOf encWrap = some ⟨0xFFFFFFF8, 16⟩ ∧ ¬ spanCovers ⟨0xFFFFFFF8, 16⟩ 8 ∧
    ¬ spanCovers ⟨0xFFFFFFF8, 16⟩ 0xFFFFFFF7 := by
  refine ⟨wit_enc_next, rfl, ?_, ?_⟩ <;> unfold spanCovers <;> decide
theorem wit_RegisterFrame : (∃ t, exec (.qry .odd) oddReady = .next t) ∧ payloadOf (.qry .odd) = none ∧
    ∀ p mode sp, ¬ installsIn p mode sp (.qry .odd) :=
  ⟨wit_qry_next, rfl, by intro p mode sp h; rcases h with h | h <;> cases h⟩
theorem wit_ParityStateMachine :
    (∃ t, runDescriptor 0#96 oddReady = .next t) ∧
    (∃ t, runDescriptor (encode (.init .normal ⟨0xFFFFFFFC, 8⟩)) (keyAtTop oddReady) = .next t) ∧
    (∃ t, runDescriptor (encode (.init .normal ⟨0, 7⟩)) oddReady = .next t) ∧
    (∃ t, runDescriptor (encode (.initp .odd .normal ⟨0xFFFFFFFC, 8⟩)) (keyAtTop oddReady) = .next t) ∧
    (∃ t, runDescriptor (encode (.initp .odd .normal ⟨0, 9⟩)) oddReady = .next t) ∧
    (∃ t, runDescriptor (encode encWrap) (wrapBytes oddReady) = .next t) ∧
    (∃ t, runDescriptor (encode (.enc .even ⟨0, 0⟩)) oddReady = .next t) ∧
    (∃ t, runDescriptor (encode decWrap) (wrapBytes oddReady) = .next t) ∧
    (∃ t, runDescriptor (encode (.qry .odd)) oddReady = .next t) :=
  ⟨⟨_, rfl⟩, ⟨_, rfl⟩, ⟨_, rfl⟩, ⟨_, rfl⟩, ⟨_, rfl⟩, ⟨_, rfl⟩, ⟨_, rfl⟩, ⟨_, rfl⟩, ⟨_, rfl⟩⟩
theorem wit_EveryStepKeepsTheInvariant : (wrapBytes oddReady).Inv ∧ ∃ t, step (wrapBytes oddReady) = .next t :=
  ⟨wit_oddReady_inv, _, rfl⟩
theorem wit_OnlyResetClearsReady :
    (∃ t, step (sending [.descriptor 0#96] oddReady) = .next t) ∧
    (∃ t, step (sending [.reset] oddReady) = .next t ∧ t.ready .odd = false) ∧
    (sending [.descriptor 0#96] oddReady).ready .odd = true ∧ (sending [.reset] oddReady).ready .odd = true :=
  ⟨⟨_, rfl⟩, ⟨_, rfl, rfl⟩, rfl, rfl⟩
theorem wit_SlotChangesOnlyByInstallationOrReset :
    (∃ t, step (sending [.reset] oddReady) = .next t ∧ t.slot .odd ≠ oddReady.slot .odd) ∧
    (∃ t, step (sending [.descriptor (encode (.initp .even .normal ⟨0xFFFFFFFC, 8⟩))] (keyAtTop oddReady)) =
      .next t ∧ t.slot .even ≠ oddReady.slot .even) := by
  refine ⟨⟨_, rfl, ?_⟩, ⟨_, rfl, ?_⟩⟩ <;> (intro h; cases h)
theorem wit_MemoryChangesOnlyByStoreOrScrambling :
    ∃ t, step (sending [.store 5 [1]] oddReady) = .next t ∧ t.mem.read 5 ≠ oddReady.mem.read 5 := by
  refine ⟨_, rfl, ?_⟩
  decide
theorem wit_ControlWordsAndChainAreUnobservable :
    SameObservable (wrapBytes oddReady)
      { wrapBytes oddReady with odd := some ⟨install Config.cipher .normal ko, ke⟩, chain := ke, fresh := 7 } ∧
    ∃ t, step (wrapBytes oddReady) = .next t := ⟨⟨rfl, rfl, rfl, rfl, rfl, rfl⟩, _, rfl⟩
theorem wit_KeysReachNoResponse :
    SameButKeys oddReady { oddReady with odd := some ⟨Config.cipher.expand ke, ke⟩ } ∧ ∃ t, exec (.qry .odd) oddReady = .next t :=
  ⟨⟨by intro p; cases p <;> rfl, rfl, rfl, rfl, rfl⟩, wit_qry_next⟩
theorem wit_ParitiesAreIsolated :
    (wrapBytes oddReady).slot .odd = ({ wrapBytes oddReady with even := some ⟨Config.cipher.expand ke, ke⟩ } : State).slot .odd ∧
    ∃ t, exec encWrap (wrapBytes oddReady) = .next t := ⟨rfl, wit_enc_next⟩

/-! ### Functions -/

theorem wit_ReduceLaws : testInst.Lawful ∧
    ke.and testInst.erMask.not = Bytes8.and ⟨0x40, 0x31, 0x70, 0xE1, 0x26, 0x6D, 0xF1, 0x84⟩ testInst.erMask.not ∧
    ker.and testInst.erMask = testInst.erVal ∧ reduce testInst ker = ker := by
  refine ⟨testInst_lawful, ?_, ?_, ?_⟩ <;> decide
theorem wit_ScrambledBlocks : 0 < (p24 16).length / 8 ∧ 1 < (p24 16).length / 8 := by decide
theorem wit_DescrambledBlocks : 1 < (p24 23).length / 8 := by decide
theorem wit_ChainingRoundTrip : testInst.Lawful := testInst_lawful
theorem wit_ScramblingIsPrefixStable : 8 * 1 ≤ (p24 9).length ∧ 8 * 1 ≤ (p24 16).length ∧
    (p24 9).take (8 * 1) = (p24 16).take (8 * 1) := by decide
theorem wit_ResidueNeedsNoKey : 8 ≤ (p24 9).length ∧ 8 ≤ (p24 8).length := by decide
theorem wit_ShortPayloadsShareOneKeystream : (p24 7).length < 8 ∧ (p24 0).length < 8 := by decide
theorem wit_DecUndoesEncInMemory : (wrapBytes oddReady).Inv ∧ (⟨0xFFFFFFF8, 16⟩ : Span).WellFormed ∧
    (wrapBytes oddReady).ready .odd = true ∧ (∃ t, exec encWrap (wrapBytes oddReady) = .next t) ∧
    ∃ t, exec decWrap (wrapBytes oddReady) = .next t :=
  ⟨wit_oddReady_inv, by decide, rfl, wit_enc_next, wit_dec_next⟩
theorem wit_WalkAccessesAndCalls :
    (∃ w, walkSpan testInst ko .scramble ⟨0xFFFFFFF8, 15⟩ (wrapBytes oddReady).mem = some w) ∧
    ∃ w, walkSpan testInst ko .descramble ⟨0xFFFFFFF8, 7⟩ (wrapBytes oddReady).mem = some w :=
  ⟨⟨_, rfl⟩, _, rfl⟩
theorem wit_WalkTouchesEachByteOnce : (⟨0xFFFFFFF8, 15⟩ : Span).WellFormed ∧
    spanCovers ⟨0xFFFFFFF8, 15⟩ 6 ∧ ¬ spanCovers ⟨0xFFFFFFF8, 15⟩ 7 := by
  refine ⟨by decide, ?_, ?_⟩ <;> unfold spanCovers <;> decide
theorem wit_BinaryLevelRefinesAbstract : encWrap.WellFormed ∧
    (∀ sp, spanOf encWrap = some sp → (p24 16).length = sp.len) ∧
    (∀ sp, touchedSpan (wrapBytes oddReady) encWrap = some sp → (wrapBytes oddReady).holds sp (p24 16)) := by
  refine ⟨by decide, ?_, ?_⟩
  · intro sp h; cases h; decide
  · intro sp h; cases h; exact wit_holds_payload

end Sys2Proof.Tests
end

section
/-! PROOFS. The binary level refines the abstract commands (00_scope.md R8, 30_encoding.md R64): chaining keeps
the payload's length, a span that holds bytes is a span read, and one refinement lemma per shared operation. -/

namespace Sys2Proof.Machine

/-! ### Chaining keeps the length (43_chaining_stream.md R97) -/

theorem splitPayload_length (l : List Byte) :
    8 * (splitPayload l).1.length + (splitPayload l).2.length = l.length := by
  rw [splitPayload_blocks_length, splitPayload_residue_length, Nat.div_add_mod]

@[simp] theorem chainEncFrom_length (c : Cipher) (s : c.KS) (chain : Bytes8) (l : List Byte) :
    (chainEncFrom c s chain l).length = l.length := by
  rw [chainEncFrom, List.length_append, joinBlocks_length, encBlocks_length,
    residueOut_length _ _ _ _ (splitPayload_residue_lt l), splitPayload_length]

@[simp] theorem chainDecFrom_length (c : Cipher) (s : c.KS) (chain : Bytes8) (l : List Byte) :
    (chainDecFrom c s chain l).length = l.length := by
  rw [chainDecFrom, List.length_append, joinBlocks_length, decBlocks_length,
    residueOut_length _ _ _ _ (splitPayload_residue_lt l), splitPayload_length]

/-! ### Spans that hold bytes -/

/-- A span holds exactly the bytes its read answers. -/
theorem holds_iff_readSpan {s : State} {sp : Span} {bs : List Byte} :
    s.holds sp bs ↔ s.mem.readSpan sp.base sp.len = some bs := readSpan_eq_some.symm

/-- A span holds what was last written to it. -/
theorem holds_of_mem_eq_writeSpan {t : State} {sp : Span} {m : Memory} {bs : List Byte}
    (hmem : t.mem = m.writeSpan sp.base bs) (hlen : bs.length = sp.len) (hwf : sp.WellFormed) : t.holds sp bs := by
  refine ⟨hlen, fun i hi => ?_⟩
  rw [hmem]
  exact read_writeSpan_inside m sp.base bs (hlen ▸ Nat.le_of_lt hwf.2) (hlen ▸ hi)

/-! ### The abstract engine inside the state -/

section Engine

variable {K : Type} (s : State K) (p : Parity)

@[simp] theorem engine_slot : s.engine.slot p = s.slot p := by cases p <;> rfl
@[simp] theorem engine_setSlot (v : Slot K) : (s.setSlot p v).engine = s.engine.setSlot p v := by cases p <;> rfl
@[simp] theorem engine_setMem (m : Memory) : (s.setMem m).engine = s.engine := rfl
@[simp] theorem engine_loadChain : s.loadChain.engine = s.engine := rfl
@[simp] theorem engine_freeChain : s.freeChain.engine = s.engine := rfl
@[simp] theorem engine_respond (st : BitVec 4) (rdy : Bool) : (s.respond st rdy).engine = s.engine := rfl
@[simp] theorem engine_respondOk (rdy : Bool) : (s.respondOk rdy).engine = s.engine := rfl

variable (e : Engine K)

/-- Eight bytes are installed as the block they spell. -/
theorem Engine.install_toList (k : Bytes8) (put : Bytes8 → Engine K) : e.install k.toList put = (put k, .ok) := rfl

/-- Any other length fails and installs nothing (60_exceptions.md R121). -/
theorem Engine.install_of_length_ne {key : List Byte} (h : key.length ≠ 8) (put : Bytes8 → Engine K) :
    e.install key put = (e, .failed .invalidKeyLength) := by
  rw [Engine.install, Bytes8.ofList?_eq_none h]

/-- A buffer under an absent slot fails (60_exceptions.md R122). -/
theorem Engine.transform_of_slot_none (h : e.slot p = none) (f : K → List Byte) :
    e.transform p f = (e, .failed .engineNotInitialized) := by
  rw [Engine.transform, h]

/-- A buffer under an installed slot is transformed under its schedule. -/
theorem Engine.transform_of_slot_some {v : Slot K} (h : e.slot p = some v) (f : K → List Byte) :
    e.transform p f = (e, .buffer (f v.ks)) := by
  rw [Engine.transform, h]

end Engine

/-! ### The refinement, one lemma per shared operation -/

/-- `t` shows the abstract outcome `r` of a command run in `s`: its slots, its reply's word as the new response,
and a buffer it answers in the payload span. -/
structure ShowsOutcome (s t : State) (payload : Option Span) (r : Engine Config.KS × Reply) : Prop where
  engine : t.engine = r.1
  resp : t.resp = s.resp ++ [r.2.word]
  buffer : ∀ out, r.2 = .buffer out → ∀ sp, payload = some sp → t.holds sp out

/-- A raised failure shows the abstract failure: the slots stay as they were (60_exceptions.md R120). -/
theorem raise_shows (f : Failure) (s : State) (payload : Option Span) :
    ShowsOutcome s (s.respond f.code false) payload (s.engine, .failed f) :=
  ⟨rfl, rfl, fun _ h => nomatch h⟩

/-- A key installation refines the abstract one whose `putE` does to the slots what `put` does to the state. -/
theorem installKey_refines {sp : Span} {s : State} {bytes : List Byte} {put : Bytes8 → State → State}
    {putE : Bytes8 → Engine Config.KS} (hlen : bytes.length = sp.len) (hspan : sp.len = 8 → s.holds sp bytes)
    (hengine : ∀ k, (put k s).engine = putE k) (hresp : ∀ k, (put k s).resp = s.resp) :
    ∃ t, installKey sp put s = .next t ∧ ShowsOutcome s t none (s.engine.install bytes putE) := by
  have hread (h : sp.len = 8) : s.mem.readSpan sp.base 8 = some bytes := h ▸ holds_iff_readSpan.1 (hspan h)
  rcases installKey_readSpan sp put s with ⟨h, e⟩ | ⟨h, hnone, -⟩ | ⟨k, h, hk, e⟩
  · rw [Engine.install_of_length_ne _ (hlen ▸ h)]
    exact ⟨_, e, raise_shows _ _ _⟩
  · rw [hread h] at hnone
    cases hnone
  · obtain rfl : bytes = k.toList := Option.some.inj ((hread h).symm.trans hk)
    rw [Engine.install_toList]
    exact ⟨_, e, hengine k, by simp [hresp, Reply.word], fun _ h => nomatch h⟩

/-- A span transformation refines the abstract one on the bytes the span holds, when it keeps their count. -/
theorem transformSpan_refines {f : Config.KS → Bytes8 → List Byte → List Byte} {par : Parity} {sp : Span}
    {s : State} {bytes : List Byte} (hwf : sp.WellFormed) (hlen : bytes.length = sp.len)
    (hspan : s.ready par = true → s.holds sp bytes) (hf : ∀ ks, (f ks .zero bytes).length = bytes.length) :
    ∃ t, transformSpan f par sp s = .next t ∧
      ShowsOutcome s t (some sp) (s.engine.transform par fun ks => f ks Bytes8.zero bytes) := by
  have hread {v} (h : s.slot par = some v) : s.mem.readSpan sp.base sp.len = some bytes :=
    holds_iff_readSpan.1 (hspan ((ready_iff s par).2 ⟨v, h⟩))
  rcases transformSpan_cases f par sp s with ⟨h, e⟩ | ⟨v, h, hnone, -⟩ | ⟨v, bs, h, hbs, e⟩
  · rw [Engine.transform_of_slot_none _ _ (by simpa using h)]
    exact ⟨_, e, raise_shows _ _ _⟩
  · rw [hread h] at hnone
    cases hnone
  · obtain rfl : bytes = bs := Option.some.inj ((hread h).symm.trans hbs)
    rw [Engine.transform_of_slot_some _ _ (by simpa using h)]
    refine ⟨_, e, by simp, by simp [Reply.word], ?_⟩
    rintro _ ⟨⟩ _ ⟨⟩
    exact holds_of_mem_eq_writeSpan (m := s.mem) (by simp) ((hf v.ks).trans hlen) hwf

theorem exec_init (mode : Mode) (sp : Span) (s : State) :
    exec (.init mode sp) s = installKey sp (fun k t =>
      (t.setSlot .even (slotFor Config.cipher mode k)).setSlot .odd (slotFor Config.cipher mode k)) s := rfl

theorem exec_initp (par : Parity) (mode : Mode) (sp : Span) (s : State) :
    exec (.initp par mode sp) s =
      installKey sp (fun k t => t.setSlot par (slotFor Config.cipher mode k)) s := rfl

theorem exec_enc (par : Parity) (sp : Span) (s : State) :
    exec (.enc par sp) s = transformSpan (chainEncFrom Config.cipher) par sp s := rfl

theorem exec_dec (par : Parity) (sp : Span) (s : State) :
    exec (.dec par sp) s = transformSpan (chainDecFrom Config.cipher) par sp s := rfl

/-- Each command refines the abstract command on the bytes of its span. -/
theorem exec_refines (i : Instr) (s : State) (bytes : List Byte) (hwf : i.WellFormed)
    (hlen : ∀ sp, spanOf i = some sp → bytes.length = sp.len)
    (hspan : ∀ sp, touchedSpan s i = some sp → s.holds sp bytes) :
    ∃ t, exec i s = .next t ∧
      ShowsOutcome s t (payloadOf i) (s.engine.run Config.cipher (commandOf bytes i)) := by
  cases i with
  | init mode sp =>
    rw [exec_init]
    exact installKey_refines (hlen sp rfl) (fun h => hspan sp (if_pos h)) (fun k => by simp) (fun k => by simp)
  | initp par mode sp =>
    rw [exec_initp]
    exact installKey_refines (hlen sp rfl) (fun h => hspan sp (if_pos h)) (fun k => by simp) (fun k => by simp)
  | enc par sp =>
    rw [exec_enc]
    exact transformSpan_refines (of_decide_eq_true hwf) (hlen sp rfl) (fun h => hspan sp (if_pos h))
      fun ks => chainEncFrom_length _ ks _ bytes
  | dec par sp =>
    rw [exec_dec]
    exact transformSpan_refines (of_decide_eq_true hwf) (hlen sp rfl) (fun h => hspan sp (if_pos h))
      fun ks => chainDecFrom_length _ ks _ bytes
  | qry par =>
    refine ⟨_, execQry_eq par s, rfl, ?_, fun _ h => nomatch h⟩
    simp [commandOf, Engine.run, Reply.word, ready_eq]

/-- Settles O53: each command is one of the two shared operations or a query, and each of these refines its
abstract counterpart. -/
theorem binaryLevelRefinesAbstract : Obligations.BinaryLevelRefinesAbstract := by
  intro i s bytes hwf hlen hspan
  obtain ⟨t, hexec, hengine, hresp, hbuffer⟩ := exec_refines i s bytes hwf hlen hspan
  exact ⟨t, hexec, hengine, hresp, hbuffer⟩

end Sys2Proof.Machine
end

section
/-! PROOFS. What a step that answers a next state can have done (44_engine_commands.md R100): one inversion lemma
per level (command, descriptor, event), and the frame of a completed command read off from it. -/

namespace Sys2Proof.Machine

variable {s t : State} {i : Instr}

/-! ### A completed command -/

/-- `t` is what a command that completes in `s` leaves: a failure is only answered, an installation writes the
slots with the control word of its key span, a transformation its span, and a query nothing. -/
inductive Completes (s : State) : Instr → State → Prop
  | failed (i : Instr) (f : Failure) : Completes s i (s.respond f.code false)
  | init (mode : Mode) (sp : Span) (k : Bytes8) (hlen : sp.len = 8)
      (hkey : s.mem.readSpan sp.base 8 = some k.toList) :
      Completes s (.init mode sp) (((s.setSlot .even (slotFor Config.cipher mode k)).setSlot .odd
        (slotFor Config.cipher mode k)).respondOk false)
  | initp (par : Parity) (mode : Mode) (sp : Span) (k : Bytes8) (hlen : sp.len = 8)
      (hkey : s.mem.readSpan sp.base 8 = some k.toList) :
      Completes s (.initp par mode sp) ((s.setSlot par (slotFor Config.cipher mode k)).respondOk false)
  | transformed {i : Instr} {sp : Span} (out : List Byte) (hpayload : payloadOf i = some sp) :
      Completes s i (((s.loadChain.setMem (s.mem.writeSpan sp.base out)).freeChain).respondOk false)
  | queried (par : Parity) : Completes s (.qry par) (s.respondOk (s.ready par))

/-- A command that answers a next state is completed. -/
theorem completes_of_exec (h : exec i s = .next t) : Completes s i t := by
  rcases exec_cases i s with ⟨_, _, _, e⟩ | ⟨_, _, _, _, e⟩ | ⟨mode, sp, k, rfl, hlen, hkey, e⟩ |
    ⟨par, mode, sp, k, rfl, hlen, hkey, e⟩ | ⟨_, _, _, _, e⟩ | ⟨_, _, _, _, _, _, e⟩ |
    ⟨par, sp, _, _, out, hi, _, _, e⟩ | ⟨par, rfl, e⟩ <;> rw [e] at h <;> cases h
  · exact .failed i .invalidKeyLength
  · exact .init mode sp k hlen hkey
  · exact .initp par mode sp k hlen hkey
  · exact .failed i .engineNotInitialized
  · refine .transformed out ?_
    rcases hi with ⟨rfl, -⟩ | ⟨rfl, -⟩ <;> rfl
  · exact .queried par

/-- A slot after a completed command is as before, or what an installation of its parity writes. -/
theorem Completes.slot_cases (h : Completes s i t) (p : Parity) :
    t.slot p = s.slot p ∨ ∃ mode sp k, installsIn p mode sp i ∧ sp.len = 8 ∧
      s.mem.readSpan sp.base 8 = some (Bytes8.toList k) ∧ t.slot p = some (slotFor Config.cipher mode k) := by
  cases h with
  | failed i f => exact .inl (by simp)
  | init mode sp k hlen hkey => exact .inr ⟨mode, sp, k, .inl rfl, hlen, hkey, by cases p <;> rfl⟩
  | initp par mode sp k hlen hkey =>
    by_cases hp : p = par
    · subst hp
      exact .inr ⟨mode, sp, k, .inr rfl, hlen, hkey, by simp⟩
    · exact .inl (by simp [setSlot_slot_other _ _ _ _ hp])
  | transformed out hpayload => exact .inl (by simp)
  | queried par => exact .inl (by simp)

/-- Memory after a completed command is as before, or written over its payload span. -/
theorem Completes.mem_cases (h : Completes s i t) :
    t.mem = s.mem ∨ ∃ sp out, payloadOf i = some sp ∧ t.mem = s.mem.writeSpan sp.base out := by
  cases h with
  | transformed out hpayload => exact .inr ⟨_, out, hpayload, by simp⟩
  | _ => exact .inl (by simp)

/-- A completed command without a payload leaves the chaining register and its counter alone. -/
theorem Completes.chain_eq (h : Completes s i t) (hi : payloadOf i = none) :
    t.chain = s.chain ∧ t.fresh = s.fresh := by
  cases h with
  | transformed out hpayload => rw [hi] at hpayload; cases hpayload
  | _ => simp

/-! ### One response word -/

/-- `t` has answered one command more than `s` with one of the five legal words, and its port is the same. -/
structure AnswersOne (s t : State) : Prop where
  port : t.port = s.port
  cmdidx : t.cmdidx = s.cmdidx + 1
  resp : ∃ w ∈ legalResponses, t.resp = s.resp ++ [w]

/-- A failure's word is a legal one (30_encoding.md R61). -/
theorem failure_word_legal (f : Failure) : responseWord f.code false ∈ legalResponses := by
  cases f <;> decide

/-- An OK response's word is a legal one, whatever its `RDY` bit (30_encoding.md R61). -/
theorem ok_word_legal (rdy : Bool) : responseWord statusOk rdy ∈ legalResponses := by
  cases rdy <;> decide

theorem respond_failure_answersOne (f : Failure) (s : State) : AnswersOne s (s.respond f.code false) :=
  ⟨rfl, rfl, _, failure_word_legal f, rfl⟩

/-- Every completed command is answered once, whatever its status (10_state.md R16, R20). -/
theorem Completes.answersOne (h : Completes s i t) : AnswersOne s t := by
  cases h with
  | failed i f => exact respond_failure_answersOne f s
  | queried par => exact ⟨rfl, rfl, _, ok_word_legal _, rfl⟩
  | _ => exact ⟨by simp, by simp, _, ok_word_legal false, by simp⟩

/-! ### Descriptors, events and steps -/

/-- A descriptor that answers a next state is illegal and answered so, or its command completes. -/
theorem runDescriptor_next {d : Descriptor} (h : runDescriptor d s = .next t) :
    ((∃ e, decode d = .error e) ∧ t = s.respond Failure.illegalCommand.code false) ∨
    ∃ i, decode d = .ok i ∧ Completes s i t := by
  unfold runDescriptor at h
  cases hd : decode d with
  | error e => rw [hd] at h; cases h; exact .inl ⟨⟨e, rfl⟩, rfl⟩
  | ok i => rw [hd] at h; exact .inr ⟨i, rfl, completes_of_exec h⟩

/-- Every descriptor that answers a next state is answered once (10_state.md R16, R20). -/
theorem runDescriptor_answersOne {d : Descriptor} (h : runDescriptor d s = .next t) : AnswersOne s t := by
  rcases runDescriptor_next h with ⟨-, rfl⟩ | ⟨i, -, hi⟩
  · exact respond_failure_answersOne _ s
  · exact hi.answersOne

theorem step_of_port_nil (h : s.port = []) : step s = .next s := by rw [step, takeEvent, h]

theorem step_of_port_cons {e : HostEvent} {rest : List HostEvent} (h : s.port = e :: rest) :
    step s = runEvent e (s.setPort rest) := by rw [step, takeEvent, h]

/-- What a step that answers a next state did: nothing, a host store, a reset, or a descriptor. -/
theorem step_next (h : step s = .next t) :
    t = s ∨
    (∃ rest addr bs, s.port = .store addr bs :: rest ∧ t = (s.setPort rest).hostStore addr bs) ∨
    (∃ rest, s.port = .reset :: rest ∧ t = (s.setPort rest).hostReset) ∨
    ∃ rest d, s.port = .descriptor d :: rest ∧ runDescriptor d (s.setPort rest) = .next t := by
  cases hp : s.port with
  | nil => rw [step_of_port_nil hp] at h; cases h; exact .inl rfl
  | cons e rest =>
    rw [step_of_port_cons hp] at h
    cases e with
    | descriptor d => exact .inr (.inr (.inr ⟨rest, d, rfl, h⟩))
    | store addr bs => cases h; exact .inr (.inl ⟨rest, addr, bs, rfl, rfl⟩)
    | reset => cases h; exact .inr (.inr (.inl ⟨rest, rfl, rfl⟩))

end Sys2Proof.Machine
end

section
/-! PROOFS. The state's rules over a step (10_state.md): the invariant, the frame of the registers, what clears a
ready bit, and one response per descriptor of a list. -/

namespace Sys2Proof.Machine

variable {s t : State}

/-! ### The invariant -/

/-- One more legal answer keeps the invariant where memory and slots meet theirs (10_state.md R16, R20). -/
theorem inv_of_answersOne (h : s.Inv) (ha : AnswersOne s t) (hmem : t.mem.wf) (hslots : t.slotsInstalled) :
    t.Inv where
  mem_wf := hmem
  slots := hslots
  one_response_each := by
    obtain ⟨w, -, hresp⟩ := ha.resp
    rw [hresp, ha.cmdidx, List.length_append, h.one_response_each, List.length_singleton]
  responses_legal := by
    obtain ⟨w, hw, hresp⟩ := ha.resp
    rw [hresp]
    exact fun x hx => (List.mem_append.1 hx).elim (h.responses_legal x) fun hx => List.mem_singleton.1 hx ▸ hw

theorem State.slotsInstalled.congr (h : s.slotsInstalled) (e : ∀ p, t.slot p = s.slot p) : t.slotsInstalled :=
  fun p v hv => h p v (e p ▸ hv)

/-- A completed command leaves memory canonical (20_memory.md R30). -/
theorem Completes.mem_wf {i : Instr} (h : Completes s i t) (hs : s.mem.wf) : t.mem.wf := by
  rcases h.mem_cases with e | ⟨sp, out, -, e⟩ <;> rw [e]
  · exact hs
  · exact writeSpan_wf sp.base out hs

/-- A completed command leaves each slot as an installation does (10_state.md R12, R13). -/
theorem Completes.slotsInstalled {i : Instr} (h : Completes s i t) (hs : s.slotsInstalled) : t.slotsInstalled := by
  intro p v hv
  rcases h.slot_cases p with e | ⟨mode, sp, k, -, -, -, e⟩
  · exact hs p v (e ▸ hv)
  · obtain rfl : v = slotFor Config.cipher mode k := Option.some.inj (hv.symm.trans e)
    exact ⟨mode, rfl⟩

theorem runDescriptor_keeps_inv {d : Descriptor} (h : s.Inv) (hd : runDescriptor d s = .next t) : t.Inv := by
  have hone := runDescriptor_answersOne hd
  rcases runDescriptor_next hd with ⟨-, rfl⟩ | ⟨i, -, hi⟩
  · exact inv_of_answersOne h hone h.mem_wf (h.slots.congr (respond_slot s · _ _))
  · exact inv_of_answersOne h hone (hi.mem_wf h.mem_wf) (hi.slotsInstalled h.slots)

theorem setPort_keeps_inv (h : s.Inv) (port : List HostEvent) : (s.setPort port).Inv :=
  ⟨h.mem_wf, h.slots.congr (setPort_slot s · port), h.one_response_each, h.responses_legal⟩

theorem hostStore_keeps_inv (h : s.Inv) (addr : Nat) (bs : List Byte) : (s.hostStore addr bs).Inv :=
  ⟨writeSpan_wf addr bs h.mem_wf, h.slots.congr (hostStore_slot s · addr bs), h.one_response_each,
    h.responses_legal⟩

theorem hostReset_keeps_inv (h : s.Inv) : s.hostReset.Inv :=
  ⟨h.mem_wf, fun p v hv => by simp at hv, rfl, fun w hw => by simp at hw⟩

/-- Settles O31: the idle step and each event of the host keep the invariant. -/
theorem everyStepKeepsTheInvariant : Obligations.EveryStepKeepsTheInvariant := by
  intro s t hs h
  rcases step_next h with rfl | ⟨rest, addr, bs, -, rfl⟩ | ⟨rest, -, rfl⟩ | ⟨rest, d, -, hd⟩
  · exact hs
  · exact hostStore_keeps_inv (setPort_keeps_inv hs rest) addr bs
  · exact hostReset_keeps_inv (setPort_keeps_inv hs rest)
  · exact runDescriptor_keeps_inv (setPort_keeps_inv hs rest) hd

/-- Settles O32: nothing is installed, stored or answered after reset. -/
theorem resetMeetsTheInvariant : Obligations.ResetMeetsTheInvariant where
  mem_wf := reset_mem_wf
  slots := fun p v hv => by cases p <;> cases hv
  one_response_each := rfl
  responses_legal := fun w hw => nomatch hw

/-! ### Slots and the chaining register -/

/-- Settles O29: a slot that changes was installed, and only a payload moves the chaining register. -/
theorem registerFrame : Obligations.RegisterFrame := by
  intro i s t h
  have hc := completes_of_exec h
  refine ⟨fun p hp => ?_, hc.chain_eq⟩
  exact (hc.slot_cases p).resolve_right fun ⟨mode, sp, k, hi, _⟩ => hp mode sp hi

/-- A completed command clears no ready bit. -/
theorem Completes.ready {i : Instr} (h : Completes s i t) {p : Parity} (hp : s.ready p = true) : t.ready p = true := by
  rcases h.slot_cases p with e | ⟨mode, sp, k, -, -, -, e⟩
  · rwa [ready_eq, e]
  · rw [ready_eq, e]; rfl

/-- Settles O33: idling, a store and a descriptor keep a present slot, and a reset removes both. -/
theorem onlyResetClearsReady : Obligations.OnlyResetClearsReady := by
  intro s t p h hp
  rcases step_next h with rfl | ⟨rest, addr, bs, -, rfl⟩ | ⟨rest, hport, rfl⟩ | ⟨rest, d, -, hd⟩
  · exact .inl hp
  · exact .inl (by simpa [ready_eq] using hp)
  · exact .inr ⟨⟨rest, hport⟩, hostReset_slot _ p⟩
  · have hp' : (s.setPort rest).ready p = true := by simpa [ready_eq] using hp
    rcases runDescriptor_next hd with ⟨-, rfl⟩ | ⟨i, -, hi⟩
    · exact .inl (by simpa [ready_eq] using hp')
    · exact .inl (hi.ready hp')

/-- A transformation under an absent slot only raises (60_exceptions.md R122). -/
theorem transformSpan_of_slot_none {K : Type} {s : State K} {par : Parity} (h : s.slot par = none)
    (f : K → Bytes8 → List Byte → List Byte) (sp : Span) :
    transformSpan f par sp s = raise .engineNotInitialized s := by
  rw [transformSpan, h]

theorem reset_slot (p : Parity) : State.reset.slot p = none := by cases p <;> rfl

/-- Settles O12: with no slot present a transformation raises and a query answers 0. -/
theorem resetState : Obligations.ResetState := by
  intro p
  refine ⟨reset_slot p, fun sp => ?_, fun sp => ?_, ?_⟩
  · rw [exec_enc, transformSpan_of_slot_none (reset_slot p)]; rfl
  · rw [exec_dec, transformSpan_of_slot_none (reset_slot p)]; rfl
  · rw [exec, execQry_eq, ready_eq, reset_slot]; rfl

/-! ### A list of descriptors -/

/-- A run that completes completes its first step, and then the rest from there. -/
theorem run_succ_next {M : Host.Core} {k : Nat} {s t : M.State} (h : M.run (k + 1) s = .next t) :
    ∃ u, M.step s = .next u ∧ M.run k u = .next t := by
  rw [Host.Core.run] at h
  cases hu : M.step s with
  | next u => rw [hu] at h; exact ⟨u, rfl, h⟩
  | fault r => rw [hu] at h; cases h
  | refused r => rw [hu] at h; cases h

/-- Settles O14, by induction on the list: each step takes one descriptor and answers it once. -/
theorem runAnswersEveryDescriptor : Obligations.RunAnswersEveryDescriptor := by
  intro ds
  induction ds with
  | nil =>
    intro s t hport h
    cases h
    exact ⟨hport, rfl, [], by simp⟩
  | cons d ds ih =>
    intro s t hport h
    obtain ⟨u, hu, hrest⟩ := run_succ_next h
    have hd : runDescriptor d (s.setPort (ds.map .descriptor)) = .next u := (step_of_port_cons hport).symm.trans hu
    obtain ⟨huport, hucmd, w, hw, huresp⟩ := runDescriptor_answersOne hd
    obtain ⟨hend, hcmd, ws, hresp, hlen, hlegal⟩ := ih u t huport hrest
    refine ⟨hend, ?_, w :: ws, ?_, ?_, ?_⟩
    · rw [hcmd, hucmd, setPort_cmdidx, List.length_cons]; omega
    · rw [hresp, huresp, setPort_resp, List.append_assoc, List.singleton_append]
    · rw [List.length_cons, List.length_cons, hlen]
    · exact List.forall_mem_cons.2 ⟨hw, hlegal⟩

end Sys2Proof.Machine
end

section
/-! PROOFS. Control words and the chaining register are unobservable (10_state.md R13, R14): every operation
takes states that agree on what software can observe to outcomes that agree on it. -/

namespace Sys2Proof.Machine

variable {s t : State}

/-- Two outcomes agree on what software can observe: both states do, or the refusals are the same. -/
inductive SameOutcome : Result → Result → Prop
  | next {s t : State} (h : SameObservable s t) : SameOutcome (.next s) (.next t)
  | refused (r : Refusal) : SameOutcome (.refused r) (.refused r)

namespace SameObservable

/-- Slots that agree hold the same schedule. -/
theorem slot (h : SameObservable s t) (p : Parity) : (s.slot p).map Slot.ks = (t.slot p).map Slot.ks := by
  cases p
  · exact h.even
  · exact h.odd

theorem ready (h : SameObservable s t) (p : Parity) : s.ready p = t.ready p := by
  simpa [ready_eq] using congrArg Option.isSome (h.slot p)

/-! Each state operation keeps the agreement. -/

theorem setSlot (h : SameObservable s t) (p : Parity) (v : Slot Config.KS) :
    SameObservable (s.setSlot p v) (t.setSlot p v) := by
  cases p
  · exact ⟨rfl, h.odd, h.mem, h.port, h.cmdidx, h.resp⟩
  · exact ⟨h.even, rfl, h.mem, h.port, h.cmdidx, h.resp⟩

theorem setMem (h : SameObservable s t) (m : Memory) : SameObservable (s.setMem m) (t.setMem m) :=
  ⟨h.even, h.odd, rfl, h.port, h.cmdidx, h.resp⟩

theorem setPort (h : SameObservable s t) (port : List HostEvent) : SameObservable (s.setPort port) (t.setPort port) :=
  ⟨h.even, h.odd, h.mem, rfl, h.cmdidx, h.resp⟩

theorem loadChain (h : SameObservable s t) : SameObservable s.loadChain t.loadChain :=
  ⟨h.even, h.odd, h.mem, h.port, h.cmdidx, h.resp⟩

theorem freeChain (h : SameObservable s t) : SameObservable s.freeChain t.freeChain :=
  ⟨h.even, h.odd, h.mem, h.port, h.cmdidx, h.resp⟩

theorem respond (h : SameObservable s t) (st : BitVec 4) (rdy : Bool) :
    SameObservable (s.respond st rdy) (t.respond st rdy) :=
  ⟨h.even, h.odd, h.mem, h.port, by simp [h.cmdidx], by simp [h.resp]⟩

theorem respondOk (h : SameObservable s t) (rdy : Bool) : SameObservable (s.respondOk rdy) (t.respondOk rdy) :=
  h.respond statusOk rdy

theorem hostStore (h : SameObservable s t) (addr : Nat) (bs : List Byte) :
    SameObservable (s.hostStore addr bs) (t.hostStore addr bs) := by
  rw [State.hostStore, State.hostStore, h.mem]
  exact h.setMem _

theorem hostReset (h : SameObservable s t) : SameObservable s.hostReset t.hostReset :=
  ⟨rfl, rfl, h.mem, h.port, rfl, rfl⟩

/-! Each command, event and step answers alike. -/

theorem raise (h : SameObservable s t) (f : Failure) : SameOutcome (raise f s) (raise f t) :=
  .next (h.respond f.code false)

theorem installKey (h : SameObservable s t) (sp : Span) {put : Bytes8 → State → State}
    (hput : ∀ k, SameObservable (put k s) (put k t)) : SameOutcome (installKey sp put s) (installKey sp put t) := by
  unfold Machine.installKey
  rw [h.mem]
  split
  · exact h.raise _
  · cases t.mem.readKey sp.base with
    | none => exact .refused _
    | some k => exact .next ((hput k).respondOk false)

theorem transformSpan (h : SameObservable s t) (f : Config.KS → Bytes8 → List Byte → List Byte) (par : Parity)
    (sp : Span) : SameOutcome (transformSpan f par sp s) (transformSpan f par sp t) := by
  have hks := h.slot par
  unfold Machine.transformSpan
  rw [h.mem]
  cases hs : s.slot par <;> cases ht : t.slot par <;> rw [hs, ht] at hks
  case none.none => exact h.raise _
  case none.some => cases hks
  case some.none => cases hks
  case some.some v w =>
    have hvw : v.ks = w.ks := Option.some.inj hks
    cases t.mem.readSpan sp.base sp.len with
    | none => exact .refused _
    | some payload =>
      dsimp only
      rw [hvw]
      exact .next ((h.loadChain.setMem _).freeChain.respondOk false)

theorem exec (h : SameObservable s t) (i : Instr) : SameOutcome (exec i s) (exec i t) := by
  cases i with
  | init mode sp =>
    rw [exec_init, exec_init]
    exact h.installKey sp fun k => (h.setSlot .even _).setSlot .odd _
  | initp par mode sp =>
    rw [exec_initp, exec_initp]
    exact h.installKey sp fun k => h.setSlot par _
  | enc par sp => exact h.transformSpan _ par sp
  | dec par sp => exact h.transformSpan _ par sp
  | qry par =>
    rw [Machine.exec, Machine.exec, execQry_eq, execQry_eq, h.ready par]
    exact .next (h.respondOk _)

theorem runDescriptor (h : SameObservable s t) (d : Descriptor) :
    SameOutcome (runDescriptor d s) (runDescriptor d t) := by
  unfold Machine.runDescriptor
  cases decode d with
  | error e => exact h.raise _
  | ok i => exact h.exec i

theorem runEvent (h : SameObservable s t) (e : HostEvent) : SameOutcome (runEvent e s) (runEvent e t) := by
  cases e with
  | descriptor d => exact h.runDescriptor d
  | store addr bs => exact .next (h.hostStore addr bs)
  | reset => exact .next h.hostReset

theorem step (h : SameObservable s t) : SameOutcome (step s) (step t) := by
  cases hp : t.port with
  | nil =>
    rw [step_of_port_nil hp, step_of_port_nil (h.port.trans hp)]
    exact .next h
  | cons e rest =>
    rw [step_of_port_cons hp, step_of_port_cons (h.port.trans hp)]
    exact (h.setPort rest).runEvent e

end SameObservable

/-- Settles O36: the outcomes of two agreeing states' steps agree, and each clause is one case of that. -/
theorem controlWordsAndChainAreUnobservable : Obligations.ControlWordsAndChainAreUnobservable := by
  intro s t h
  have hstep := h.step
  generalize step s = o, step t = o' at hstep ⊢
  cases hstep with
  | next h' =>
    refine ⟨fun s' hs => ?_, fun _ hr => nomatch hr⟩
    cases hs
    exact ⟨_, rfl, h'⟩
  | refused => exact ⟨fun _ hs => (nomatch hs), fun _ hr => hr⟩

end Sys2Proof.Machine
end

section
/-! PROOFS. The byte form of a descriptor (20_memory.md R33): its three words in order are the twelve bytes of one
number, so a byte is eight bits of it, and reading the words back gives the number. -/

namespace Sys2Proof

/-! ### Bytes of a number -/

@[simp] theorem bytesOfNat_length (n x : Nat) : (bytesOfNat n x).length = n := by
  induction n generalizing x with
  | zero => rfl
  | succ n ih => rw [bytesOfNat, List.length_cons, ih]

/-- Byte `i` of a number is its digit of weight `256^i`. -/
theorem bytesOfNat_getElem? {n i : Nat} (x : Nat) (h : i < n) :
    (bytesOfNat n x)[i]? = some (BitVec.ofNat 8 (x / 256 ^ i)) := by
  induction n generalizing x i with
  | zero => omega
  | succ n ih =>
    cases i with
    | zero => simp [bytesOfNat]
    | succ i => rw [bytesOfNat, List.getElem?_cons_succ, ih _ (by omega), Nat.div_div_eq_div_mul, Nat.pow_succ']

/-- The bytes of a number are its low bytes and then the bytes of what stands above them. -/
theorem bytesOfNat_add (m n x : Nat) :
    bytesOfNat (m + n) x = bytesOfNat m x ++ bytesOfNat n (x / 256 ^ m) := by
  induction m generalizing x with
  | zero => simp [bytesOfNat]
  | succ m ih =>
    rw [Nat.add_right_comm, bytesOfNat, ih, bytesOfNat, List.cons_append, Nat.div_div_eq_div_mul, Nat.pow_succ']

/-- Only the low `n` bytes of a number count. -/
theorem bytesOfNat_mod (n x : Nat) : bytesOfNat n (x % 256 ^ n) = bytesOfNat n x := by
  refine List.ext_getElem? fun i => ?_
  by_cases h : i < n
  · rw [bytesOfNat_getElem? _ h, bytesOfNat_getElem? _ h]
    congr 1
    apply BitVec.eq_of_toNat_eq
    obtain ⟨k, rfl⟩ := Nat.exists_eq_add_of_lt h
    rw [BitVec.toNat_ofNat, BitVec.toNat_ofNat, Nat.add_assoc, Nat.pow_add, Nat.mod_mul_right_div_self]
    exact Nat.mod_mod_of_dvd _ (Dvd.intro_left (256 ^ k) rfl)
  · rw [List.getElem?_eq_none (by simpa using h), List.getElem?_eq_none (by simpa using h)]

/-- The number read back from `n` bytes is what fits in them. -/
theorem natOfBytes_bytesOfNat (n x : Nat) : natOfBytes (bytesOfNat n x) = x % 256 ^ n := by
  induction n generalizing x with
  | zero => simp [bytesOfNat, natOfBytes, Nat.mod_one]
  | succ n ih => rw [bytesOfNat, natOfBytes, ih, BitVec.toNat_ofNat, pow_succ' 256 n, Nat.mod_mul]

/-! ### Descriptors -/

/-- `W0`, `W1`, `W2` in order are the twelve bytes of the descriptor, least significant first (R33). -/
theorem descToBytes_eq (d : Descriptor) : descToBytes d = bytesOfNat 12 d.toNat := by
  rw [show (12 : Nat) = 4 + 4 + 4 from rfl, bytesOfNat_add, bytesOfNat_add, ← bytesOfNat_mod 4 d.toNat,
    ← bytesOfNat_mod 4 (d.toNat / 256 ^ 4), ← bytesOfNat_mod 4 (d.toNat / 256 ^ (4 + 4))]
  simp [descToBytes, descBits]

/-- A descriptor is the value of its three words (R33, 30_encoding.md R50). -/
theorem descOfWords_descBits (d : Descriptor) :
    descOfWords (descBits d 95 64) (descBits d 63 32) (descBits d 31 0) = d := by
  apply BitVec.eq_of_toNat_eq
  have := d.isLt
  simp only [descOfWords, descBits, BitVec.toNat_ofNat]
  omega

/-- Three groups of four bytes in front of a list are read as the three words. -/
theorem descOfBytes_append {w0 w1 w2 : List Byte} (h0 : w0.length = 4) (h1 : w1.length = 4) (h2 : w2.length = 4)
    (rest : List Byte) :
    descOfBytes (w0 ++ w1 ++ w2 ++ rest) =
      some (descOfWords (natOfBytes w2) (natOfBytes w1) (natOfBytes w0), rest) := by
  rw [descOfBytes, if_neg (by simp; omega)]
  simp [List.drop_append, List.drop_eq_nil_of_le, h0, h1, h2]

/-- Settles O5: the byte form is the twelve bytes of one number, and each word is read back whole. -/
theorem descriptorBytesAreLittleEndian : Obligations.DescriptorBytesAreLittleEndian := by
  intro d rest
  have hword (hi lo : Nat) (h : hi + 1 - lo = 32) :
      natOfBytes (bytesOfNat 4 (descBits d hi lo)) = descBits d hi lo := by
    rw [natOfBytes_bytesOfNat, descBits, h]
    exact Nat.mod_mod _ _
  refine ⟨?_, by simp [descToBytes_eq], fun n hn => ?_⟩
  · rw [descToBytes, descOfBytes_append (by simp) (by simp) (by simp), hword 31 0 rfl, hword 63 32 rfl,
      hword 95 64 rfl, descOfWords_descBits]
  · rw [descToBytes_eq, bytesOfNat_getElem? _ hn, show (256 : Nat) = 2 ^ 8 from rfl, ← Nat.pow_mul,
      ← Nat.shiftRight_eq_div_pow]
    rfl

end Sys2Proof
end

section
/-! PROOFS. Memory and the commands (20_memory.md R35, R37, R38, R40, R46): when a command is refused, which bytes
it changes, and that a failure and an installation depend on no more than they say. -/

namespace Sys2Proof.Machine

variable {s t : State}

/-! ### Refusals (20_memory.md R38) -/

/-- A span the host does not own is one whose read stops. -/
theorem not_owns_iff_readSpan {sp : Span} : ¬ s.owns sp ↔ s.mem.readSpan sp.base sp.len = none := by
  simp [State.owns, spanCovers, readSpan_eq_none]

/-- A key installation is refused exactly for a key span of the right length that is not owned. -/
theorem installKey_refused_iff {sp : Span} {put : Bytes8 → State → State} {r : Refusal} :
    installKey sp put s = .refused r ↔ r = .spanNotOwned ∧ sp.len = 8 ∧ ¬ s.owns sp := by
  rw [not_owns_iff_readSpan]
  rcases installKey_readSpan sp put s with ⟨h, e⟩ | ⟨h, hread, e⟩ | ⟨k, h, hread, e⟩ <;> rw [e]
  · simp [raise_eq, h]
  · simp [h, hread, eq_comm]
  · simp [h, hread]

/-- A transformation is refused exactly for a READY parity and a span that is not owned. -/
theorem transformSpan_refused_iff {f : Config.KS → Bytes8 → List Byte → List Byte} {par : Parity} {sp : Span}
    {r : Refusal} :
    transformSpan f par sp s = .refused r ↔ r = .spanNotOwned ∧ s.ready par = true ∧ ¬ s.owns sp := by
  rw [not_owns_iff_readSpan, ready_eq]
  rcases transformSpan_cases f par sp s with ⟨h, e⟩ | ⟨v, h, hread, e⟩ | ⟨v, bs, h, hread, e⟩ <;> rw [e, h]
  · simp [raise_eq]
  · simp [hread, eq_comm]
  · simp [hread]

/-- Settles O27: each command is refused as its shared operation is, and a query never. -/
theorem refusedExactlyOverUnownedSpans : Obligations.RefusedExactlyOverUnownedSpans := by
  intro i s
  refine ⟨fun r => ?_, fun f => nomatch f⟩
  cases i with
  | init mode sp => rw [exec_init, installKey_refused_iff]; simp [touchedSpan]
  | initp par mode sp => rw [exec_initp, installKey_refused_iff]; simp [touchedSpan]
  | enc par sp => rw [exec_enc, transformSpan_refused_iff]; simp [touchedSpan]
  | dec par sp => rw [exec_dec, transformSpan_refused_iff]; simp [touchedSpan]
  | qry par => simp [exec, execQry_eq, touchedSpan]

/-! ### Which bytes a command changes (20_memory.md R35) -/

/-- From `s` to `t` a span that had all its bytes was written over with as many. -/
def SpanRewritten (s t : State) (sp : Span) : Prop :=
  ∃ bs out, s.mem.readSpan sp.base sp.len = some bs ∧ out.length = sp.len ∧ t.mem = s.mem.writeSpan sp.base out

/-- A transformation that keeps the byte count is only answered, or writes over its span. -/
theorem transformSpan_mem_cases {f : Config.KS → Bytes8 → List Byte → List Byte} {par : Parity} {sp : Span}
    (hf : ∀ ks bs, (f ks .zero bs).length = bs.length) (h : transformSpan f par sp s = .next t) :
    t.mem = s.mem ∨ s.ready par = true ∧ SpanRewritten s t sp := by
  rcases transformSpan_cases f par sp s with ⟨-, e⟩ | ⟨v, -, -, e⟩ | ⟨v, bs, hv, hread, e⟩ <;> cases h.symm.trans e
  · exact .inl rfl
  · exact .inr ⟨(ready_iff s par).2 ⟨v, hv⟩, bs, _, hread, (hf v.ks bs).trans (readSpan_length hread), rfl⟩

/-- Memory after a command is as before, or the span of an `ENC` or `DEC` of a READY parity was written over. -/
theorem exec_mem_cases {i : Instr} (h : exec i s = .next t) :
    t.mem = s.mem ∨ ∃ p sp, (i = .enc p sp ∨ i = .dec p sp) ∧ s.ready p = true ∧ SpanRewritten s t sp := by
  cases i with
  | enc p sp =>
    exact (transformSpan_mem_cases (fun ks bs => chainEncFrom_length _ ks _ bs) h).imp_right
      fun hspan => ⟨p, sp, .inl rfl, hspan⟩
  | dec p sp =>
    exact (transformSpan_mem_cases (fun ks bs => chainDecFrom_length _ ks _ bs) h).imp_right
      fun hspan => ⟨p, sp, .inr rfl, hspan⟩
  | _ => exact .inl ((completes_of_exec h).mem_cases.resolve_right fun ⟨_, _, hpayload, _⟩ => nomatch hpayload)

/-- An address that reads otherwise after a span write is one of the span's. -/
theorem exists_spanAddr_of_read_writeSpan_ne {m : Memory} {base : Nat} {bs : List Byte} {a : Nat}
    (h : (m.writeSpan base bs).read a ≠ m.read a) : ∃ i, i < bs.length ∧ spanAddr base i = a := by
  by_contra hout
  exact h (read_writeSpan_outside m base bs fun i hi e => hout ⟨i, hi, e⟩)

/-- After a span write an address has no byte exactly when it had none and is not one of the span's. -/
theorem read_writeSpan_eq_none (m : Memory) (base : Nat) (bs : List Byte) (a : Nat) :
    (m.writeSpan base bs).read a = none ↔ m.read a = none ∧ ∀ i, i < bs.length → spanAddr base i ≠ a := by
  induction bs generalizing m base with
  | nil => simp
  | cons v vs ih =>
    rw [writeSpan_cons, ih, read_write, List.length_cons, Nat.forall_lt_succ_left]
    by_cases h : a = spanAddr base 0
    · simp [h]
    · simp [h, Ne.symm h, spanAddr_succ]

/-- Only the span's own bytes read otherwise. -/
theorem SpanRewritten.covers {sp : Span} (h : SpanRewritten s t sp) {a : Nat} (hne : t.mem.read a ≠ s.mem.read a) :
    spanCovers sp a := by
  obtain ⟨bs, out, -, hlen, hmem⟩ := h
  rw [hmem] at hne
  rw [spanCovers, ← hlen]
  exact exists_spanAddr_of_read_writeSpan_ne hne

/-- Writing over a span that had all its bytes adds no address and takes none. -/
theorem SpanRewritten.read_eq_none {sp : Span} (h : SpanRewritten s t sp) (a : Nat) :
    t.mem.read a = none ↔ s.mem.read a = none := by
  obtain ⟨bs, out, hread, hlen, hmem⟩ := h
  rw [hmem, read_writeSpan_eq_none, and_iff_left_iff_imp]
  rintro ha i hi rfl
  exact absurd (readSpan_eq_none.2 ⟨i, hlen ▸ hi, ha⟩) (by simp [hread])

/-- Settles O28: only the payload span is written over, and a command leaves the port alone. -/
theorem memoryFrame : Obligations.MemoryFrame := by
  intro i s t h
  have hport : t.port = s.port := (completes_of_exec h).answersOne.port
  rcases exec_mem_cases h with hmem | ⟨p, sp, hi, -, hspan⟩
  · rw [hmem]
    exact ⟨fun _ => rfl, fun _ _ _ _ => rfl, fun _ => Iff.rfl, hport⟩
  · have hpayload : payloadOf i = some sp := by rcases hi with rfl | rfl <;> rfl
    rw [hpayload]
    refine ⟨(nomatch ·), ?_, hspan.read_eq_none, hport⟩
    rintro _ a ⟨⟩ hout
    exact not_not.1 fun hne => hout (hspan.covers hne)

/-- Memory after a descriptor is as before, or that of a command that writes over its span. -/
theorem runDescriptor_mem_cases {d : Descriptor} (h : runDescriptor d s = .next t) :
    t.mem = s.mem ∨ ∃ p sp, (decode d = .ok (.enc p sp) ∨ decode d = .ok (.dec p sp)) ∧ s.ready p = true ∧
      SpanRewritten s t sp := by
  unfold runDescriptor at h
  cases hd : decode d with
  | error e =>
    rw [hd] at h
    cases h
    exact .inl rfl
  | ok i =>
    rw [hd] at h
    exact (exec_mem_cases h).imp_right fun ⟨p, sp, hi, hspan⟩ => ⟨p, sp, by simpa using hi, hspan⟩

/-- Settles O35: of the host's events only a store and a transformation write memory, each its own span. -/
theorem memoryChangesOnlyByStoreOrScrambling : Obligations.MemoryChangesOnlyByStoreOrScrambling := by
  intro s t a h hne
  rcases step_next h with rfl | ⟨rest, addr, bs, hport, rfl⟩ | ⟨rest, -, rfl⟩ | ⟨rest, d, hport, hd⟩
  · exact absurd rfl hne
  · obtain ⟨i, hi, e⟩ := exists_spanAddr_of_read_writeSpan_ne hne
    exact .inl ⟨addr, bs, rest, i, hport, hi, e⟩
  · exact absurd rfl hne
  · rcases runDescriptor_mem_cases hd with hmem | ⟨p, sp, hdec, hready, hspan⟩
    · exact absurd (congrArg (Memory.read · a) hmem) hne
    · exact .inr ⟨d, rest, p, sp, hport, hdec, by simpa [ready_eq] using hready, hspan.covers hne⟩

/-- Settles O13: the store is a span write, which every address of the span reads back and no other sees. -/
theorem hostStoreIsVisible : Obligations.HostStoreIsVisible := by
  intro s addr bs rest hport hlen
  exact ⟨s.mem.writeSpan addr bs, step_of_port_cons hport, fun i hi => read_writeSpan_inside s.mem addr bs hlen hi,
    fun a hout => read_writeSpan_outside s.mem addr bs hout⟩

/-! ### A failure reads nothing (20_memory.md R46) -/

/-- The command `run` answers `s` with a failure over any memory, and `t` is that answer; or it answers OK. -/
def FailsBlindOrOk (run : State → Result) (s t : State) : Prop :=
  (∃ f : Failure, t = s.respond f.code false ∧ ∀ m, run (s.setMem m) = raise f (s.setMem m)) ∨
    ∃ rdy, t.resp = s.resp ++ [responseWord statusOk rdy]

theorem installKey_of_len_ne {sp : Span} (h : sp.len ≠ 8) (put : Bytes8 → State → State) (s : State) :
    installKey sp put s = raise .invalidKeyLength s := if_pos h

theorem installKey_failsBlindOrOk {sp : Span} {put : Bytes8 → State → State}
    (hput : ∀ k, (put k s).resp = s.resp) (h : installKey sp put s = .next t) :
    FailsBlindOrOk (installKey sp put) s t := by
  rcases installKey_cases sp put s with ⟨hlen, e⟩ | ⟨-, -, e⟩ | ⟨k, -, -, e⟩ <;> cases h.symm.trans e
  · exact .inl ⟨_, rfl, fun m => installKey_of_len_ne hlen put _⟩
  · exact .inr ⟨false, by simp [hput]⟩

theorem transformSpan_failsBlindOrOk {f : Config.KS → Bytes8 → List Byte → List Byte} {par : Parity} {sp : Span}
    (h : transformSpan f par sp s = .next t) : FailsBlindOrOk (transformSpan f par sp) s t := by
  rcases transformSpan_cases f par sp s with ⟨hslot, e⟩ | ⟨v, -, -, e⟩ | ⟨v, bs, -, -, e⟩ <;> cases h.symm.trans e
  · exact .inl ⟨_, rfl, fun m => transformSpan_of_slot_none (by simpa using hslot) f sp⟩
  · exact .inr ⟨false, by simp⟩

theorem exec_failsBlindOrOk {i : Instr} (h : exec i s = .next t) : FailsBlindOrOk (exec i) s t := by
  cases i with
  | init mode sp => exact installKey_failsBlindOrOk (fun k => by simp) h
  | initp par mode sp => exact installKey_failsBlindOrOk (fun k => by simp) h
  | enc par sp => exact transformSpan_failsBlindOrOk h
  | dec par sp => exact transformSpan_failsBlindOrOk h
  | qry par => cases h; exact .inr ⟨s.ready par, rfl⟩

theorem runDescriptor_failsBlindOrOk {d : Descriptor} (h : runDescriptor d s = .next t) :
    FailsBlindOrOk (runDescriptor d) s t := by
  unfold runDescriptor at h ⊢
  cases hd : decode d with
  | error e => rw [hd] at h; cases h; exact .inl ⟨.illegalCommand, rfl, fun m => rfl⟩
  | ok i => rw [hd] at h; exact exec_failsBlindOrOk h

/-- Settles O25: a word that is not an OK answer is a failure's, which validation finds without memory. -/
theorem failedCommandHasNoEffect : Obligations.FailedCommandHasNoEffect := by
  intro d s t w h hresp hok hready
  rcases runDescriptor_failsBlindOrOk h with ⟨f, rfl, hblind⟩ | ⟨rdy, e⟩
  · obtain rfl : responseWord f.code false = w := by simpa using hresp
    exact ⟨rfl, hblind⟩
  · obtain rfl : w = responseWord statusOk rdy := by simpa using hresp.symm.trans e
    cases rdy
    · exact absurd word_ok hok
    · exact absurd word_ready hready

/-! ### Repeating an installation or a query (20_memory.md R37) -/

@[simp] theorem setSlot_respondOk {K : Type} (s : State K) (p : Parity) (v : Slot K) (rdy : Bool) :
    (s.respondOk rdy).setSlot p v = (s.setSlot p v).respondOk rdy := by cases p <;> rfl

@[simp] theorem setSlot_setSlot {K : Type} (s : State K) (p : Parity) (v : Slot K) :
    (s.setSlot p v).setSlot p v = s.setSlot p v := by cases p <;> rfl

theorem respondOk_ready {K : Type} (s : State K) (p : Parity) (rdy : Bool) : (s.respondOk rdy).ready p = s.ready p := by
  rw [ready_eq, respondOk_slot, ready_eq]

/-- `t` answers `run` with the response it already ends in, and stays as it is otherwise. -/
def Repeats (run : State → Result) (s t : State) : Prop :=
  ∃ st rdy, t.resp = s.resp ++ [responseWord st rdy] ∧ run t = .next (t.respond st rdy)

/-- A key installation repeats when writing the same slots again changes nothing. -/
theorem installKey_repeats {sp : Span} {put : Bytes8 → State → State} (hmem : ∀ k, (put k s).mem = s.mem)
    (hresp : ∀ k, (put k s).resp = s.resp)
    (hput : ∀ k, put k ((put k s).respondOk false) = (put k s).respondOk false)
    (h : installKey sp put s = .next t) : Repeats (installKey sp put) s t := by
  rcases installKey_cases sp put s with ⟨hlen, e⟩ | ⟨-, -, e⟩ | ⟨k, hlen, hkey, e⟩ <;> cases h.symm.trans e
  · exact ⟨_, false, rfl, installKey_of_len_ne hlen put _⟩
  · refine ⟨statusOk, false, by rw [respondOk_resp, hresp], ?_⟩
    rw [installKey, if_neg (not_not.2 hlen), respondOk_mem, hmem, hkey]
    dsimp only
    rw [hput, respondOk_eq _ false]

/-- A command without a payload repeats: a failure is found again, a slot is written as it stands, and a query
changes no slot. -/
theorem exec_repeats {i : Instr} (hi : payloadOf i = none) (h : exec i s = .next t) : Repeats (exec i) s t := by
  cases i with
  | init mode sp => exact installKey_repeats (fun k => by simp) (fun k => by simp) (fun k => rfl) h
  | initp par mode sp => exact installKey_repeats (fun k => by simp) (fun k => by simp) (fun k => by simp) h
  | enc par sp => cases hi
  | dec par sp => cases hi
  | qry par =>
    cases h
    refine ⟨statusOk, s.ready par, rfl, ?_⟩
    rw [exec, execQry_eq, respondOk_ready]
    rfl

/-- Settles O22: such a command repeats, with the word it answered first. -/
theorem installationIsIdempotent : Obligations.InstallationIsIdempotent := by
  intro i s t hi h
  obtain ⟨st, rdy, hresp, hrun⟩ := exec_repeats hi h
  exact ⟨_, hresp, hrun⟩

end Sys2Proof.Machine
end

section
/-! PROOFS. The engine's walk in place (20_memory.md R36, 43_chaining_stream.md R99): its accesses and calls, that
they touch each byte of the span once (R35), and that it leaves what the whole-span transform leaves. -/

namespace Sys2Proof.Machine

/-! ### The addresses of a span in order -/

/-- The addresses of two adjoining spans are those of the first and then those of the second. -/
theorem spanAddrs_add (base n m : Nat) : spanAddrs base (n + m) = spanAddrs base n ++ spanAddrs (base + n) m := by
  induction n generalizing base with
  | zero => simp [spanAddrs]
  | succ n ih => rw [Nat.add_right_comm, spanAddrs, ih, spanAddrs, List.cons_append, Nat.add_assoc, Nat.add_comm 1]

theorem spanAddrs_eq_map (base n : Nat) : spanAddrs base n = (List.range n).map (spanAddr base) := by
  induction n with
  | zero => rfl
  | succ n ih => rw [spanAddrs_add, ih, List.range_succ, List.map_append]; simp [spanAddrs, spanAddr_shift]

/-- A span's addresses in order are exactly the covered ones (20_memory.md R31). -/
theorem mem_spanAddrs (sp : Span) (a : Nat) : a ∈ spanAddrs sp.base sp.len ↔ spanCovers sp a := by
  simp [spanAddrs_eq_map, spanCovers]

/-- No address of a span within the address space comes twice (R31). -/
theorem spanAddrs_nodup (base : Nat) {n : Nat} (h : n ≤ 2 ^ Config.abits) : (spanAddrs base n).Nodup := by
  rw [spanAddrs_eq_map]
  refine List.nodup_range.map_on fun i hi j hj e => ?_
  rw [List.mem_range] at hi hj
  exact spanAddr_inj (by omega) (by omega) e

/-! ### The access log of a piece and of a span -/

theorem pieceLog_eq (base k n : Nat) :
    pieceLog base k n = (spanAddrs (base + k) n).map .read ++ (spanAddrs (base + k) n).map .write := by
  have h : spanAddrs (base + k) n = (List.range n).map fun j => spanAddr base (k + j) := by
    rw [spanAddrs_eq_map]
    exact List.map_congr_left fun j _ => spanAddr_shift base k j
  rw [pieceLog, h, List.map_map, List.map_map]
  rfl

/-- Counting offsets from a later base is counting them further from this one. -/
theorem pieceLog_shift (base k j n : Nat) : pieceLog (base + k) j n = pieceLog base (k + j) n := by
  rw [pieceLog_eq, pieceLog_eq, Nat.add_assoc]

@[simp] theorem pieceLog_zero (base k : Nat) : pieceLog base k 0 = [] := rfl

/-- The accesses to `n` full blocks from `base` on, block by block forward (20_memory.md R36). -/
def blocksLog (base n : Nat) : List Access := (List.range n).flatMap fun i => pieceLog base (8 * i) 8

theorem blocksLog_succ (base n : Nat) : blocksLog base (n + 1) = blocksLog base n ++ pieceLog base (8 * n) 8 := by
  simp [blocksLog, List.range_succ]

/-- The first block's accesses come first. -/
theorem blocksLog_succ' (base n : Nat) : blocksLog base (n + 1) = pieceLog base 0 8 ++ blocksLog (base + 8) n := by
  rw [blocksLog, List.range_succ_eq_map, List.flatMap_cons, List.flatMap_map]
  simp [blocksLog, pieceLog_shift, Nat.mul_succ, Nat.add_comm]

theorem spanLog_eq (sp : Span) :
    spanLog sp = blocksLog sp.base (sp.len / 8) ++ pieceLog sp.base (8 * (sp.len / 8)) (sp.len % 8) := rfl

/-! ### Each byte once (20_memory.md R35) -/

/-- How the log records an access of one kind. -/
def IsAccessKind (mk : Nat → Access) : Prop := mk = .read ∨ mk = .write

/-- A piece reads, and writes, each of its addresses as often as it has it. -/
theorem count_pieceLog {mk : Nat → Access} (hmk : IsAccessKind mk) (base k n a : Nat) :
    (pieceLog base k n).count (mk a) = (spanAddrs (base + k) n).count a := by
  rw [pieceLog_eq, List.count_append]
  rcases hmk with rfl | rfl
  · have hwrites (l : List Nat) : (l.map Access.write).count (.read a) = 0 := List.count_eq_zero.2 (by simp)
    rw [hwrites, Nat.add_zero, List.count_map_of_injective _ _ fun x y h => Access.read.inj h]
  · have hreads (l : List Nat) : (l.map Access.read).count (.write a) = 0 := List.count_eq_zero.2 (by simp)
    rw [hreads, Nat.zero_add, List.count_map_of_injective _ _ fun x y h => Access.write.inj h]

theorem count_blocksLog {mk : Nat → Access} (hmk : IsAccessKind mk) (base n a : Nat) :
    (blocksLog base n).count (mk a) = (spanAddrs base (8 * n)).count a := by
  induction n with
  | zero => rfl
  | succ n ih =>
    rw [blocksLog_succ, List.count_append, ih, count_pieceLog hmk, Nat.mul_succ, spanAddrs_add, List.count_append]

/-- A whole walk reads, and writes, each address as often as the span has it. -/
theorem count_spanLog {mk : Nat → Access} (hmk : IsAccessKind mk) (sp : Span) (a : Nat) :
    (spanLog sp).count (mk a) = (spanAddrs sp.base sp.len).count a := by
  rw [spanLog_eq, List.count_append, count_blocksLog hmk, count_pieceLog hmk, ← List.count_append, ← spanAddrs_add,
    Nat.div_add_mod]

/-- Settles O52: the log has each address as often as the span does, which is once or never. -/
theorem walkTouchesEachByteOnce : Obligations.WalkTouchesEachByteOnce := by
  intro sp a hwf
  rw [← List.count_eq_zero, ← List.count_eq_zero, count_spanLog (.inl rfl), count_spanLog (.inr rfl),
    ← mem_spanAddrs]
  have hnodup : (spanAddrs sp.base sp.len).Nodup := spanAddrs_nodup sp.base (Nat.le_of_lt hwf.2)
  exact ⟨fun h => ⟨List.count_eq_one_of_mem hnodup h, List.count_eq_one_of_mem hnodup h⟩,
    fun h => ⟨List.count_eq_zero.2 h, List.count_eq_zero.2 h⟩⟩

/-! ### One piece of the walk -/

@[simp] theorem walkStart_calls (m : Memory) : (walkStart m).calls = 0 := rfl
@[simp] theorem walkStart_log (m : Memory) : (walkStart m).log = [] := rfl

section Walk

variable {c : Cipher} {s : c.KS} {d : Direction}

/-- A piece stops where its read stops; otherwise it leaves its bytes replaced and its accesses recorded. -/
theorem walkPiece_cases (base n : Nat) (f : List Byte → List Byte) (chain : List Byte → Bytes8) (calls : Nat)
    (w : Walk) :
    (w.mem.readSpan base n = none ∧ walkPiece base n f chain calls w = none) ∨
    ∃ bs u, w.mem.readSpan base n = some bs ∧ walkPiece base n f chain calls w = some u ∧
      u.mem = w.mem.writeSpan base (f bs) ∧ u.chain = chain bs ∧ u.calls = w.calls + calls ∧
      u.log = w.log ++ pieceLog base 0 n := by
  rw [walkPiece, pieceLog_eq, ← List.append_assoc]
  cases w.mem.readSpan base n with
  | none => exact .inl ⟨rfl, rfl⟩
  | some bs => exact .inr ⟨bs, _, rfl, rfl, rfl, rfl, rfl, rfl⟩

/-- What a piece that completes adds to the record of the walk. -/
theorem walkPiece_log_calls {base n calls : Nat} {f : List Byte → List Byte} {chain : List Byte → Bytes8}
    {w w' : Walk} (h : walkPiece base n f chain calls w = some w') :
    w'.log = w.log ++ pieceLog base 0 n ∧ w'.calls = w.calls + calls := by
  rcases walkPiece_cases base n f chain calls w with ⟨-, e⟩ | ⟨_, u, -, e, -, -, hcalls, hlog⟩ <;>
    cases h.symm.trans e
  exact ⟨hlog, hcalls⟩

/-- The blocks of a walk that completes add their accesses and one call each (43_chaining_stream.md R97). -/
theorem walkBlocks_log_calls {n base : Nat} {w w' : Walk} (h : walkBlocks c s d n base w = some w') :
    w'.log = w.log ++ blocksLog base n ∧ w'.calls = w.calls + n := by
  induction n generalizing base w with
  | zero => cases h; simp [blocksLog]
  | succ n ih =>
    rw [walkBlocks] at h
    split at h
    · cases h
    · next u hu =>
      obtain ⟨hlog, hcalls⟩ := walkPiece_log_calls hu
      obtain ⟨hlog', hcalls'⟩ := ih h
      exact ⟨by rw [hlog', hlog, blocksLog_succ', List.append_assoc], by omega⟩

/-- The residue adds its accesses, and a call when it is not empty and there was no block (R94, R97). -/
theorem walkResidue_log_calls {n base r : Nat} {w w' : Walk} (h : walkResidue c s n base r w = some w') :
    w'.log = w.log ++ pieceLog base 0 r ∧ w'.calls = w.calls + if r ≠ 0 ∧ n = 0 then 1 else 0 := by
  rw [walkResidue] at h
  split at h
  · cases h
    simp [*]
  · obtain ⟨hlog, hcalls⟩ := walkPiece_log_calls h
    exact ⟨hlog, by simp [*]⟩

theorem walkSpan_eq (sp : Span) (m : Memory) :
    walkSpan c s d sp m = (walkBlocks c s d (sp.len / 8) sp.base (walkStart m)).bind
      (walkResidue c s (sp.len / 8) (sp.base + 8 * (sp.len / 8)) (sp.len % 8)) := by
  rw [walkSpan]
  cases walkBlocks c s d (sp.len / 8) sp.base (walkStart m) <;> rfl

end Walk

/-- Settles O51: the blocks' accesses and calls, and then the residue's. -/
theorem walkAccessesAndCalls : Obligations.WalkAccessesAndCalls := by
  intro c s d sp m w h
  rw [walkSpan_eq] at h
  obtain ⟨u, hblocks, hresidue⟩ := Option.bind_eq_some_iff.1 h
  obtain ⟨hlog, hcalls⟩ := walkBlocks_log_calls hblocks
  obtain ⟨hlog', hcalls'⟩ := walkResidue_log_calls hresidue
  constructor
  · rw [hlog', hlog, spanLog_eq, pieceLog_shift, walkStart_log, List.nil_append, Nat.add_zero]
  · rw [hcalls', hcalls]
    rw [walkStart_calls]
    split <;> split <;> omega

/-! ### The walk and the whole-span transform (20_memory.md R36) -/

/-- A span write leaves what the span after it reads as, when both fit the address space together. -/
theorem readSpan_writeSpan_after (m : Memory) (base : Nat) (bs : List Byte) {n : Nat}
    (h : bs.length + n ≤ 2 ^ Config.abits) :
    (m.writeSpan base bs).readSpan (base + bs.length) n = m.readSpan (base + bs.length) n := by
  refine readSpan_congr fun i hi => read_writeSpan_outside m base bs fun j hj e => ?_
  rw [spanAddr_shift] at e
  exact absurd (spanAddr_inj (by omega) (by omega) e) (by omega)

section Transform

variable (c : Cipher) (s : c.KS)

/-- The blocks `n` full blocks become in a direction, from a chaining value (43_chaining_stream.md R92, R93). -/
def blocksOut : Direction → Bytes8 → List Bytes8 → List Bytes8
  | .scramble => encBlocks c s
  | .descramble => decBlocks c s

/-- The scrambled side of those blocks, which the seed is taken from (R94). -/
def blocksScrambled : Direction → Bytes8 → List Bytes8 → List Bytes8
  | .scramble, chain, bs => encBlocks c s chain bs
  | .descramble, _, ys => ys

/-- `ChainEnc` or `ChainDec` from a chaining value (R96). -/
def chainFrom : Direction → Bytes8 → List Byte → List Byte
  | .scramble => chainEncFrom c s
  | .descramble => chainDecFrom c s

/-- The chaining value after blocks whose scrambled side is `ys`: the last of them (R92, R93). -/
def chainAfter (chain : Bytes8) (ys : List Bytes8) : Bytes8 := ys.getLast?.getD chain

variable {d : Direction} (chain : Bytes8)

theorem chainFrom_eq (l : List Byte) :
    chainFrom c s d chain l = joinBlocks (blocksOut c s d chain (splitPayload l).1) ++
      residueOut c s chain (blocksScrambled c s d chain (splitPayload l).1) (splitPayload l).2 := by
  cases d <;> rfl

theorem blocksOut_cons (b : Bytes8) (bs : List Bytes8) :
    blocksOut c s d chain (b :: bs) =
      (blockStep c s chain d b).1 :: blocksOut c s d (blockStep c s chain d b).2 bs := by
  cases d <;> rfl

theorem blocksScrambled_cons (b : Bytes8) (bs : List Bytes8) :
    blocksScrambled c s d chain (b :: bs) =
      (blockStep c s chain d b).2 :: blocksScrambled c s d (blockStep c s chain d b).2 bs := by
  cases d <;> rfl

@[simp] theorem blocksOut_length (bs : List Bytes8) : (blocksOut c s d chain bs).length = bs.length := by
  cases d
  · exact encBlocks_length c s chain bs
  · exact decBlocks_length c s chain bs

@[simp] theorem blocksScrambled_length (bs : List Bytes8) :
    (blocksScrambled c s d chain bs).length = bs.length := by
  cases d
  · exact encBlocks_length c s chain bs
  · rfl

theorem chainAfter_cons (y : Bytes8) (ys : List Bytes8) : chainAfter chain (y :: ys) = chainAfter y ys := by
  rw [chainAfter, List.getLast?_cons]
  rfl

/-- The one chaining register holds the seed once a block is done, and is enciphered for it when none was (R94, R99). -/
theorem seed_eq_chainAfter (ys : List Bytes8) :
    seed c s chain ys = if ys.length = 0 then c.blockEnc s (chainAfter chain ys) else chainAfter chain ys := by
  cases ys with
  | nil => rfl
  | cons y ys => rw [if_neg (by simp), seed, chainAfter, List.getLast?_cons]; rfl

theorem blockOf_toList (b : Bytes8) : blockOf b.toList = b := rfl

end Transform

section Walk

variable {c : Cipher} {s : c.KS} {d : Direction}

/-- The walk over full blocks stops where the read of them all stops; otherwise it leaves memory with the blocks
replaced and the register at the last scrambled one. -/
theorem walkBlocks_cases (n base : Nat) (w : Walk) (hn : 8 * n ≤ 2 ^ Config.abits) :
    (w.mem.readSpan base (8 * n) = none ∧ walkBlocks c s d n base w = none) ∨
    ∃ bs u, bs.length = n ∧ w.mem.readSpan base (8 * n) = some (joinBlocks bs) ∧
      walkBlocks c s d n base w = some u ∧
      u.mem = w.mem.writeSpan base (joinBlocks (blocksOut c s d w.chain bs)) ∧
      u.chain = chainAfter w.chain (blocksScrambled c s d w.chain bs) := by
  induction n generalizing base w with
  | zero => exact .inr ⟨[], w, rfl, rfl, rfl, by cases d <;> rfl, by cases d <;> rfl⟩
  | succ n ih =>
    rw [Nat.mul_succ, Nat.add_comm (8 * n), readSpan_add, walkBlocks]
    rcases walkPiece_cases base 8 (fun bs => (blockStep c s w.chain d (blockOf bs)).1.toList)
      (fun bs => (blockStep c s w.chain d (blockOf bs)).2) 1 w with
      ⟨hread, e⟩ | ⟨l, w', hread, e, hmem, hchain, -, -⟩ <;> rw [e, hread]
    · exact .inl ⟨rfl, rfl⟩
    · obtain ⟨b, hb⟩ := Bytes8.ofList?_of_length (readSpan_length hread)
      obtain rfl := Bytes8.toList_of_ofList? hb
      rw [blockOf_toList] at hmem hchain
      have hafter : w'.mem.readSpan (base + 8) (8 * n) = w.mem.readSpan (base + 8) (8 * n) :=
        hmem ▸ readSpan_writeSpan_after w.mem base (blockStep c s w.chain d b).1.toList (n := 8 * n)
          (by rw [Bytes8.toList_length]; omega)
      rw [← hafter]
      rcases ih (base + 8) w' (by omega) with ⟨hrest, hwalk⟩ | ⟨bs, u, hlen, hrest, hwalk, hmem', hchain'⟩ <;>
        rw [hrest]
      · exact .inl ⟨rfl, hwalk⟩
      · refine .inr ⟨b :: bs, u, by rw [List.length_cons, hlen], rfl, hwalk, ?_, ?_⟩
        · rw [hmem', hmem, hchain, blocksOut_cons, joinBlocks, writeSpan_append, Bytes8.toList_length]
        · rw [hchain', hchain, blocksScrambled_cons, chainAfter_cons]

/-- The walk over the residue stops where its read stops; otherwise it leaves memory with the residue replaced,
when the register stands where the blocks before left it. -/
theorem walkResidue_mem {chain : Bytes8} {ys : List Bytes8} {base r : Nat} {w : Walk}
    (hw : w.chain = chainAfter chain ys) :
    (walkResidue c s ys.length base r w).map Walk.mem =
      (w.mem.readSpan base r).map fun t => w.mem.writeSpan base (residueOut c s chain ys t) := by
  rw [walkResidue]
  split
  · next hr => subst hr; rfl
  · rw [walkPiece]
    simp only [residueOut_eq, seed_eq_chainAfter, hw]
    cases w.mem.readSpan base r <;> rfl

end Walk

/-- The walk over `n` blocks and `r` residue bytes is the whole-span transform of them. -/
theorem walk_mem (c : Cipher) (s : c.KS) (d : Direction) (w : Walk) {base n r : Nat} (hr : r < 8)
    (hlen : 8 * n + r ≤ 2 ^ Config.abits) :
    ((walkBlocks c s d n base w).bind (walkResidue c s n (base + 8 * n) r)).map Walk.mem =
      (w.mem.readSpan base (8 * n + r)).map fun bs => w.mem.writeSpan base (chainFrom c s d w.chain bs) := by
  rw [readSpan_add]
  rcases walkBlocks_cases (c := c) (s := s) (d := d) n base w (by omega) with
    ⟨hread, hwalk⟩ | ⟨bs, u, rfl, hread, hwalk, hmem, hchain⟩ <;> rw [hwalk, hread]
  · rfl
  · have hafter := readSpan_writeSpan_after w.mem base (joinBlocks (blocksOut c s d w.chain bs)) (n := r)
      (by rwa [joinBlocks_length, blocksOut_length])
    rw [joinBlocks_length, blocksOut_length] at hafter
    have hresidue := walkResidue_mem (c := c) (s := s) (base := base + 8 * bs.length) (r := r) hchain
    rw [blocksScrambled_length, hmem, hafter] at hresidue
    rw [Option.bind_some, hresidue, Option.bind_some, Option.map_map]
    cases ht : w.mem.readSpan (base + 8 * bs.length) r with
    | none => rfl
    | some t =>
      have hsplit := splitPayload_join bs (t := t) (readSpan_length ht ▸ hr)
      simp [chainFrom_eq, hsplit, writeSpan_append, joinBlocks_length]

/-- Settles O50: the blocks and then the residue, in place, are the transform of the whole span. -/
theorem walkIsTheWholeSpanTransform : Obligations.WalkIsTheWholeSpanTransform := by
  intro c s d sp m hwf
  have h := walk_mem c s d (walkStart m) (base := sp.base) (Nat.mod_lt sp.len (by decide : 0 < 8))
    (by rw [Nat.div_add_mod]; exact Nat.le_of_lt hwf.2)
  rw [← walkSpan_eq, Nat.div_add_mod] at h
  rw [h]
  cases d <;> rfl

end Sys2Proof.Machine
end

section
/-! PROOFS. Decoder and encoder (30_encoding.md R56, R57): a descriptor decodes to a command exactly when its fields
are the command's, so each of the two undoes the other, and a row's mask covers the fields its command fixes. -/

namespace Sys2Proof

/-! ### The fields of a command -/

/-- The six fields of the descriptor are the ones 30_encoding.md R51 to R56 give the command. -/
structure HasFieldsOf (d : Descriptor) (i : Instr) : Prop where
  opc : descOpc d = (Laws.Encoding.bits i).1
  par : descPar d = (Laws.Encoding.bits i).2.1
  mode : descMode d = (Laws.Encoding.bits i).2.2
  rsv0 : descRsv0 d = 0
  base : descBase d = (Laws.Encoding.span i).base
  len : descLen d = (Laws.Encoding.span i).len

/-- A descriptor decodes to exactly the command whose fields it has (R57). -/
theorem decode_eq_ok_iff {d : Descriptor} {i : Instr} : decode d = .ok i ↔ HasFieldsOf d i := by
  constructor
  · intro h
    obtain ⟨hrsv0, ⟨hopc, hpar, rfl⟩ | ⟨hopc, rfl⟩ | ⟨hopc, hmode, rfl⟩ | ⟨hopc, hmode, rfl⟩ |
      ⟨hopc, hmode, hbase, hlen, rfl⟩⟩ := decode_ok h
    · exact ⟨hopc, hpar, (modeBit_modeOfBit (descMode_lt d)).symm, hrsv0, rfl, rfl⟩
    · exact ⟨hopc, (parityBit_parityOfBit (descPar_lt d)).symm, (modeBit_modeOfBit (descMode_lt d)).symm, hrsv0,
        rfl, rfl⟩
    · exact ⟨hopc, (parityBit_parityOfBit (descPar_lt d)).symm, hmode, hrsv0, rfl, rfl⟩
    · exact ⟨hopc, (parityBit_parityOfBit (descPar_lt d)).symm, hmode, hrsv0, rfl, rfl⟩
    · exact ⟨hopc, (parityBit_parityOfBit (descPar_lt d)).symm, hmode, hrsv0, hbase, hlen⟩
  · rintro ⟨hopc, hpar, hmode, hrsv0, hbase, hlen⟩
    cases i <;> simp [decode, hopc, hpar, hmode, hrsv0, hbase, hlen, Laws.Encoding.bits, Laws.Encoding.span]

/-- The descriptor of a well-formed command has its fields (R57). -/
theorem encode_hasFieldsOf {i : Instr} (h : i.WellFormed) : HasFieldsOf (encode i) i := by
  have hfields : Laws.Encoding.Statement i := by
    cases i with
    | init mode sp => exact Laws.Encoding.init mode sp
    | initp par mode sp => exact Laws.Encoding.initp par mode sp
    | enc par sp => exact Laws.Encoding.enc par sp
    | dec par sp => exact Laws.Encoding.dec par sp
    | qry par => exact Laws.Encoding.qry par
  obtain ⟨hopc, hpar, hmode, hrsv0, hbase, hlen⟩ := hfields h
  exact ⟨hopc, hpar, hmode, hrsv0, hbase, hlen⟩

/-- Settles O1: the encoding has the command's fields, and the decoder reads nothing else. -/
theorem decodeInvertsEncode : Obligations.DecodeInvertsEncode := fun _ h => decode_eq_ok_iff.2 (encode_hasFieldsOf h)

/-- Two descriptors are equal exactly when their fields are: the fields leave out no bit (R50, R51). -/
theorem descriptor_eq_iff_fields {d e : Descriptor} :
    d = e ↔ descOpc d = descOpc e ∧ descPar d = descPar e ∧ descMode d = descMode e ∧ descRsv0 d = descRsv0 e ∧
      descBase d = descBase e ∧ descLen d = descLen e := by
  constructor
  · rintro rfl
    exact ⟨rfl, rfl, rfl, rfl, rfl, rfl⟩
  · rintro ⟨hopc, hpar, hmode, hrsv0, hbase, hlen⟩
    apply BitVec.eq_of_toNat_eq
    rw [toNat_eq_fields d, toNat_eq_fields e, hopc, hpar, hmode, hrsv0, hbase, hlen]

/-- A command's fields belong to one descriptor. -/
theorem HasFieldsOf.unique {d e : Descriptor} {i : Instr} (hd : HasFieldsOf d i) (he : HasFieldsOf e i) : d = e :=
  descriptor_eq_iff_fields.2 ⟨hd.opc.trans he.opc.symm, hd.par.trans he.par.symm, hd.mode.trans he.mode.symm,
    hd.rsv0.trans he.rsv0.symm, hd.base.trans he.base.symm, hd.len.trans he.len.symm⟩

/-- A command whose fields a descriptor has fits them (R52). -/
theorem HasFieldsOf.wellFormed {d : Descriptor} {i : Instr} (h : HasFieldsOf d i) : i.WellFormed := by
  have hspan : (Laws.Encoding.span i).WellFormed := ⟨h.base ▸ descBase_lt d, h.len ▸ descLen_lt d⟩
  cases i with
  | qry par => rfl
  | _ => exact decide_eq_true hspan

/-- Settles O2: a decoded command's fields are the descriptor's own, which fit, and belong to no other. -/
theorem encodeInvertsDecode : Obligations.EncodeInvertsDecode := by
  intro d i h
  have hd : HasFieldsOf d i := decode_eq_ok_iff.1 h
  exact ⟨hd.wellFormed, (encode_hasFieldsOf hd.wellFormed).unique hd⟩

/-! ### The table of matches and masks (R56) -/

/-- A field of a masked descriptor is the masked field. -/
theorem descBits_and (d m : Descriptor) (hi lo : Nat) :
    descBits (d &&& m) hi lo = descBits d hi lo &&& descBits m hi lo := by
  simp only [descBits, BitVec.toNat_and, Nat.and_div_two_pow, Nat.and_mod_two_pow]

/-- A masked field that the mask covers is the field. -/
theorem descBits_and_ones (d : Descriptor) (hi lo : Nat) :
    descBits d hi lo &&& (2 ^ (hi + 1 - lo) - 1) = descBits d hi lo := by
  rw [Nat.and_two_pow_sub_one_eq_mod, descBits, Nat.mod_mod]

@[simp] theorem descOpc_and_ones (d : Descriptor) : descOpc d &&& 0xFF = descOpc d := descBits_and_ones d 7 0
@[simp] theorem descPar_mod_two (d : Descriptor) : descPar d % 2 = descPar d := Nat.mod_eq_of_lt (descPar_lt d)
@[simp] theorem descMode_mod_two (d : Descriptor) : descMode d % 2 = descMode d := Nat.mod_eq_of_lt (descMode_lt d)
@[simp] theorem descRsv0_and_ones (d : Descriptor) : descRsv0 d &&& 0x3FFFFF = descRsv0 d := descBits_and_ones d 31 10
@[simp] theorem descBase_and_ones (d : Descriptor) : descBase d &&& 0xFFFFFFFF = descBase d :=
  descBits_and_ones d 63 32
@[simp] theorem descLen_and_ones (d : Descriptor) : descLen d &&& 0xFFFFFFFF = descLen d := descBits_and_ones d 95 64

/-- Masking is field by field. -/
theorem and_eq_iff_fields {d m p : Descriptor} :
    d &&& m = p ↔ descOpc d &&& descBits m 7 0 = descBits p 7 0 ∧ descPar d &&& descBits m 8 8 = descBits p 8 8 ∧
      descMode d &&& descBits m 9 9 = descBits p 9 9 ∧ descRsv0 d &&& descBits m 31 10 = descBits p 31 10 ∧
      descBase d &&& descBits m 63 32 = descBits p 63 32 ∧ descLen d &&& descBits m 95 64 = descBits p 95 64 := by
  rw [descriptor_eq_iff_fields]
  simp only [descOpc, descPar, descMode, descRsv0, descBase, descLen, descBits_and]

/-! The fields that make a descriptor a command of each row. -/

theorem decode_init_iff {d : Descriptor} :
    (∃ m sp, decode d = .ok (.init m sp)) ↔ descOpc d = 1 ∧ descPar d = 0 ∧ descRsv0 d = 0 := by
  simp only [decode_eq_ok_iff]
  constructor
  · rintro ⟨m, sp, h⟩
    exact ⟨h.opc, h.par, h.rsv0⟩
  · rintro ⟨hopc, hpar, hrsv0⟩
    exact ⟨modeOfBit (descMode d), ⟨descBase d, descLen d⟩, hopc, hpar, (modeBit_modeOfBit (descMode_lt d)).symm,
      hrsv0, rfl, rfl⟩

theorem decode_initp_iff {d : Descriptor} :
    (∃ p m sp, decode d = .ok (.initp p m sp)) ↔ descOpc d = 2 ∧ descRsv0 d = 0 := by
  simp only [decode_eq_ok_iff]
  constructor
  · rintro ⟨p, m, sp, h⟩
    exact ⟨h.opc, h.rsv0⟩
  · rintro ⟨hopc, hrsv0⟩
    exact ⟨parityOfBit (descPar d), modeOfBit (descMode d), ⟨descBase d, descLen d⟩, hopc,
      (parityBit_parityOfBit (descPar_lt d)).symm, (modeBit_modeOfBit (descMode_lt d)).symm, hrsv0, rfl, rfl⟩

/-- A row whose command uses `PAR` and the span but not `MODE`. -/
theorem decode_stream_iff {d : Descriptor} {mk : Parity → Span → Instr} {n : Nat}
    (hbits : ∀ p sp, Laws.Encoding.bits (mk p sp) = (n, parityBit p, 0))
    (hspan : ∀ p sp, Laws.Encoding.span (mk p sp) = sp) :
    (∃ p sp, decode d = .ok (mk p sp)) ↔ descOpc d = n ∧ descMode d = 0 ∧ descRsv0 d = 0 := by
  simp only [decode_eq_ok_iff]
  constructor
  · rintro ⟨p, sp, h⟩
    exact ⟨by rw [h.opc, hbits], by rw [h.mode, hbits], h.rsv0⟩
  · rintro ⟨hopc, hmode, hrsv0⟩
    exact ⟨parityOfBit (descPar d), ⟨descBase d, descLen d⟩, by rw [hopc, hbits],
      by rw [hbits, parityBit_parityOfBit (descPar_lt d)], by rw [hmode, hbits], hrsv0, by rw [hspan], by rw [hspan]⟩

theorem decode_enc_iff {d : Descriptor} :
    (∃ p sp, decode d = .ok (.enc p sp)) ↔ descOpc d = 3 ∧ descMode d = 0 ∧ descRsv0 d = 0 :=
  decode_stream_iff (fun _ _ => rfl) fun _ _ => rfl

theorem decode_dec_iff {d : Descriptor} :
    (∃ p sp, decode d = .ok (.dec p sp)) ↔ descOpc d = 4 ∧ descMode d = 0 ∧ descRsv0 d = 0 :=
  decode_stream_iff (fun _ _ => rfl) fun _ _ => rfl

theorem decode_qry_iff {d : Descriptor} :
    (∃ p, decode d = .ok (.qry p)) ↔
      descOpc d = 5 ∧ descMode d = 0 ∧ descRsv0 d = 0 ∧ descBase d = 0 ∧ descLen d = 0 := by
  simp only [decode_eq_ok_iff]
  constructor
  · rintro ⟨p, h⟩
    exact ⟨h.opc, h.mode, h.rsv0, h.base, h.len⟩
  · rintro ⟨hopc, hmode, hrsv0, hbase, hlen⟩
    exact ⟨parityOfBit (descPar d), hopc, (parityBit_parityOfBit (descPar_lt d)).symm, hmode, hrsv0, hbase, hlen⟩

/-- Every mask covers `OPC`, so a descriptor has the opcode of any row it spells. -/
theorem descOpc_of_spells {d : Descriptor} {r : OpcodeRow} (hr : r ∈ opcodeRows) (h : r.spells d) :
    descOpc r.pattern = descOpc d := by
  have hcovers : ∀ r ∈ opcodeRows, descBits r.mask 7 0 = 0xFF := by decide
  have hand : d &&& r.mask = r.pattern := by simpa [OpcodeRow.spells] using h
  have hopc := (and_eq_iff_fields.1 hand).1
  rw [hcovers r hr, descOpc_and_ones] at hopc
  exact hopc.symm

/-- No descriptor spells two rows: their opcodes differ (R56). -/
theorem length_filter_spells_le_one (d : Descriptor) : (opcodeRows.filter fun r => r.spells d).length ≤ 1 := by
  have hnodup : (opcodeRows.map fun r => descOpc r.pattern).Nodup := by decide
  calc (opcodeRows.filter fun r => r.spells d).length
      = opcodeRows.countP fun r => r.spells d := List.countP_eq_length_filter.symm
    _ ≤ opcodeRows.countP fun r => descOpc r.pattern == descOpc d :=
        List.countP_mono_left fun r hr h => beq_iff_eq.2 (descOpc_of_spells hr h)
    _ = (opcodeRows.map fun r => descOpc r.pattern).count (descOpc d) := by
        rw [List.count, List.countP_map]; rfl
    _ ≤ 1 := List.nodup_iff_count_le_one.1 hnodup _

/-- Settles O3: a row's mask and match fix exactly the fields that make a descriptor a command of that row. -/
theorem decoderMatchesOpcodeTable : Obligations.DecoderMatchesOpcodeTable := by
  intro d
  rw [decode_init_iff, decode_initp_iff, decode_enc_iff, decode_dec_iff, decode_qry_iff]
  refine ⟨?_, ?_, ?_, ?_, ?_, length_filter_spells_le_one d⟩
  · simp [and_eq_iff_fields, descBits]
  · simp [and_eq_iff_fields, descBits]
  · simp [and_eq_iff_fields, descBits]
  · simp [and_eq_iff_fields, descBits]
  · simp [and_eq_iff_fields, descBits]

end Sys2Proof
end

section
/-! PROOFS. The line of a command (30_encoding.md R62): its text falls into the words it was written from, each
word is read back as the operand it spells, and so the line as the command. -/

namespace Sys2Proof.Machine

/-! ### The tokens of a line -/

/-- The character neither separates nor begins a comment. -/
def isWordChar (ch : Char) : Bool := ch != ';' && ch != ' ' && ch != '\t' && ch != ',' && ch != ':'

/-- A text that is one token. -/
abbrev IsWord (w : List Char) : Prop := w ≠ [] ∧ w.all isWordChar = true

/-- Word characters go to the token being read. -/
theorem tokens_wordChars_append {w : List Char} (h : w.all isWordChar = true) (cur cs : List Char) :
    tokens cur (w ++ cs) = tokens (cur ++ w) cs := by
  induction w generalizing cur with
  | nil => simp
  | cons ch w ih =>
    simp only [List.all_cons, Bool.and_eq_true] at h
    obtain ⟨hch, hw⟩ := h
    simp only [isWordChar, Bool.and_eq_true, bne_iff_ne, ne_eq] at hch
    rw [List.cons_append, tokens]
    simp [hch, ih hw]

/-- A word at the end of the line is the last token. -/
theorem tokens_word {w : List Char} (h : IsWord w) : tokens [] w = [w] := by
  simpa [tokens, endToken, h.1] using tokens_wordChars_append h.2 [] []

/-- A mnemonic, with the space that ends it, is one token. -/
theorem tokens_mnemonic {text w : List Char} (htext : text = w ++ [' ']) (h : IsWord w) (cs : List Char) :
    tokens [] (text ++ cs) = w :: tokens [] cs := by
  simp [htext, tokens_wordChars_append h.2, tokens, endToken, h.1]

/-- A comma ends a word and is a token; the space after it is none. -/
theorem tokens_word_comma {w : List Char} (h : IsWord w) (cs : List Char) :
    tokens [] (w ++ (", ".toList ++ cs)) = w :: [','] :: tokens [] cs := by
  simp [tokens_wordChars_append h.2, tokens, endToken, h.1]

/-! ### Words -/

theorem isWord_parityText (p : Parity) : IsWord (parityText p) := by cases p <;> decide

theorem isWord_modeText (m : Mode) : IsWord (modeText m) := by cases m <;> decide

theorem isWordChar_hexChar {n : Nat} (h : n < 16) : isWordChar (hexChar n) = true := by
  revert n
  decide

theorem hexDigits_isWordChar (n x : Nat) : (hexDigits n x).all isWordChar = true := by
  induction n generalizing x with
  | zero => rfl
  | succ n ih => simp [hexDigits, ih, isWordChar_hexChar (Nat.mod_lt x (by decide : 0 < 16))]

theorem isWord_numberText (x : Nat) : IsWord (numberText x) := by
  refine ⟨nofun, ?_⟩
  rw [numberText, List.all_cons, List.all_cons, hexDigits_isWordChar]
  decide

/-- The span of a command, after a word, in tokens. -/
theorem tokens_word_spanText {w : List Char} (h : IsWord w) (sp : Span) :
    tokens [] (w ++ spanText sp) = [w, [','], numberText sp.base, [','], numberText sp.len] := by
  simp only [spanText, List.append_assoc]
  rw [tokens_word_comma h, tokens_word_comma (isWord_numberText _), tokens_word (isWord_numberText _)]

/-! ### Operands -/

@[simp] theorem parityWord?_parityText (p : Parity) : parityWord? (parityText p) = some p := by cases p <;> decide

@[simp] theorem modeWord?_modeText (m : Mode) : modeWord? (modeText m) = some m := by cases m <;> decide

theorem hexDigit?_hexChar {n : Nat} (h : n < 16) : hexDigit? (hexChar n) = some n := by
  revert n
  decide

/-- Digits are read from the left, each part on the value of the ones before. -/
theorem digits?_append (radix acc : Nat) (as bs : List Char) :
    digits? radix acc (as ++ bs) = (digits? radix acc as).bind fun v => digits? radix v bs := by
  induction as generalizing acc with
  | nil => rfl
  | cons ch as ih =>
    rw [List.cons_append, digits?, digits?]
    cases hexDigit? ch with
    | none => rfl
    | some d =>
      dsimp only
      split
      · exact ih _
      · rfl

/-- `n` hexadecimal digits spell the number they were written from, as far as it fits. -/
theorem digits?_hexDigits (n acc x : Nat) : digits? 16 acc (hexDigits n x) = some (acc * 16 ^ n + x % 16 ^ n) := by
  induction n generalizing x with
  | zero => simp [hexDigits, digits?, Nat.mod_one]
  | succ n ih =>
    have hlt : x % 16 < 16 := Nat.mod_lt x (by decide)
    rw [hexDigits, digits?_append, ih, Option.bind_some, digits?, hexDigit?_hexChar hlt]
    simp only [hlt, if_true, digits?]
    rw [Nat.pow_succ', Nat.mod_mul]
    congr 1
    ring

theorem number?_numberText {x : Nat} (h : x < 2 ^ 32) : number? (numberText x) = some x := by
  have hdigits : number? (numberText x) = digits? 16 0 (hexDigits 8 x) := rfl
  rw [hdigits, digits?_hexDigits, Nat.zero_mul, Nat.zero_add, Nat.mod_eq_of_lt (by omega)]

theorem spanWords?_numberText {sp : Span} (h : sp.WellFormed) :
    spanWords? (numberText sp.base) (numberText sp.len) = some sp := by
  rw [spanWords?, number?_numberText h.1, number?_numberText h.2, below, below, if_pos h.1, if_pos h.2]

/-! ### Commands -/

/-- The tokens of a command's line. -/
def asmTokens : Instr → List (List Char)
  | .init mode sp => ["INIT".toList, modeText mode, [','], numberText sp.base, [','], numberText sp.len]
  | .initp par mode sp =>
    ["INITP".toList, parityText par, [','], modeText mode, [','], numberText sp.base, [','], numberText sp.len]
  | .enc par sp => ["ENC".toList, parityText par, [','], numberText sp.base, [','], numberText sp.len]
  | .dec par sp => ["DEC".toList, parityText par, [','], numberText sp.base, [','], numberText sp.len]
  | .qry par => ["QRY".toList, parityText par]

/-! What the model writes for each command. -/

theorem asmText_init (mode : Mode) (sp : Span) :
    asmText (.init mode sp) = "INIT ".toList ++ modeText mode ++ spanText sp := rfl
theorem asmText_initp (par : Parity) (mode : Mode) (sp : Span) :
    asmText (.initp par mode sp) = "INITP ".toList ++ parityText par ++ ", ".toList ++ modeText mode ++ spanText sp := rfl
theorem asmText_enc (par : Parity) (sp : Span) :
    asmText (.enc par sp) = "ENC ".toList ++ parityText par ++ spanText sp := rfl
theorem asmText_dec (par : Parity) (sp : Span) :
    asmText (.dec par sp) = "DEC ".toList ++ parityText par ++ spanText sp := rfl
theorem asmText_qry (par : Parity) : asmText (.qry par) = "QRY ".toList ++ parityText par := rfl

/-- The line of a command falls into its words. -/
theorem tokens_asmText (i : Instr) : tokens [] (asmText i) = asmTokens i := by
  cases i with
  | init mode sp =>
    rw [asmText_init, List.append_assoc, tokens_mnemonic (w := "INIT".toList) (by decide) (by decide),
      tokens_word_spanText (isWord_modeText mode)]
    rfl
  | initp par mode sp =>
    rw [asmText_initp, List.append_assoc, List.append_assoc, List.append_assoc,
      tokens_mnemonic (w := "INITP".toList) (by decide) (by decide),
      tokens_word_comma (isWord_parityText par), tokens_word_spanText (isWord_modeText mode)]
    rfl
  | enc par sp =>
    rw [asmText_enc, List.append_assoc, tokens_mnemonic (w := "ENC".toList) (by decide) (by decide),
      tokens_word_spanText (isWord_parityText par)]
    rfl
  | dec par sp =>
    rw [asmText_dec, List.append_assoc, tokens_mnemonic (w := "DEC".toList) (by decide) (by decide),
      tokens_word_spanText (isWord_parityText par)]
    rfl
  | qry par =>
    rw [asmText_qry, tokens_mnemonic (w := "QRY".toList) (by decide) (by decide),
      tokens_word (isWord_parityText par)]
    rfl

/-- The words of a well-formed command are read back as the command. -/
theorem parseTokens_asmTokens {i : Instr} (h : i.WellFormed) : parseTokens (asmTokens i) = some (.command i) := by
  cases i with
  | init mode sp =>
    simp [asmTokens, parseTokens, initArgs?, spanWords?_numberText (of_decide_eq_true h)]
  | initp par mode sp =>
    simp [asmTokens, parseTokens, initpArgs?, spanWords?_numberText (of_decide_eq_true h)]
  | enc par sp =>
    simp [asmTokens, parseTokens, spanArgs?, spanWords?_numberText (of_decide_eq_true h)]
  | dec par sp =>
    simp [asmTokens, parseTokens, spanArgs?, spanWords?_numberText (of_decide_eq_true h)]
  | qry par => simp [asmTokens, parseTokens, qryArgs?]

/-- A listing of one line that spells a command issues that command's descriptor. -/
theorem assemble_command {line : List Char} {i : Instr} (h : parseLine line = some (.command i)) :
    assemble [line] = some [.descriptor (encode i)] := by
  rw [assemble, h]
  rfl

/-- Settles O6: the line falls into the command's words, and those are read back as the command. -/
theorem assemblerLineSpellsItsCommand : Obligations.AssemblerLineSpellsItsCommand := by
  intro i h
  have hline : parseLine (asmText i) = some (.command i) := by
    rw [parseLine, tokens_asmText, parseTokens_asmTokens h]
  exact ⟨hline, assemble_command hline⟩

end Sys2Proof.Machine
end

section
/-! PROOFS. Every descriptor is answered (30_encoding.md R58 to R61): over spans the host owns a command completes,
its word has `RDY` only for a query of a READY parity, an illegal descriptor is only answered, and an empty
payload writes nothing. -/

namespace Sys2Proof.Machine

variable {s t : State} {i : Instr}

/-! ### The `RDY` bit (30_encoding.md R60) -/

/-- Bit 8 of a response word is `RDY`. -/
@[simp] theorem responseWord_getElem_rdy (st : BitVec 4) (rdy : Bool) : (responseWord st rdy)[8] = rdy := by
  revert st rdy
  decide

/-- Only a query answers with `RDY`. -/
theorem Completes.resp_of_not_qry (h : Completes s i t) (hi : ∀ p, i ≠ .qry p) :
    ∃ st, t.resp = s.resp ++ [responseWord st false] := by
  cases h with
  | failed i f => exact ⟨f.code, rfl⟩
  | queried par => exact absurd rfl (hi par)
  | _ => exact ⟨statusOk, by simp⟩

/-- The word a completed command appends has `RDY` exactly for a query of a READY parity. -/
theorem exec_rdy_iff {w : BitVec 32} (h : exec i s = .next t) (hresp : t.resp = s.resp ++ [w]) :
    w.getLsbD 8 = true ↔ ∃ p, i = .qry p ∧ s.ready p = true := by
  by_cases hi : ∃ p, i = .qry p
  · obtain ⟨p, rfl⟩ := hi
    cases h
    obtain rfl : responseWord statusOk (s.ready p) = w := by simpa using hresp
    simp
  · have hne : ∀ p, i ≠ .qry p := fun p e => hi ⟨p, e⟩
    obtain ⟨st, e⟩ := (completes_of_exec h).resp_of_not_qry hne
    obtain rfl : w = responseWord st false := by simpa using hresp.symm.trans e
    simp [hne]

/-! ### Descriptors -/

theorem runDescriptor_of_ok {d : Descriptor} (h : decode d = .ok i) (s : State) : runDescriptor d s = exec i s := by
  rw [runDescriptor, h]

theorem runDescriptor_of_error {d : Descriptor} {e : Illegal} (h : decode d = .error e) (s : State) :
    runDescriptor d s = .next (s.respond Failure.illegalCommand.code false) := by
  rw [runDescriptor, h, raise_eq]

/-- A command over spans the host owns answers a next state: a refusal would name an unowned span. -/
theorem exec_next_of_owns (howns : ∀ sp, touchedSpan s i = some sp → s.owns sp) : ∃ t, exec i s = .next t := by
  cases h : exec i s with
  | next t => exact ⟨t, rfl⟩
  | fault f => exact nomatch f
  | refused r =>
    obtain ⟨-, sp, htouched, hnot⟩ := ((refusedExactlyOverUnownedSpans i s).1 r).1 h
    exact absurd (howns sp htouched) hnot

/-- Settles O26: an illegal descriptor is answered with its failure, a legal one as its command completes. -/
theorem everyDescriptorGetsOneResponse : Obligations.EveryDescriptorGetsOneResponse := by
  intro d s howns
  cases hd : decode d with
  | error e =>
    have hrun := runDescriptor_of_error hd s
    obtain ⟨hport, hcmdidx, -⟩ := runDescriptor_answersOne hrun
    exact ⟨_, _, hrun, rfl, hcmdidx, hport, failure_word_legal _, by simp⟩
  | ok i =>
    obtain ⟨t, ht⟩ := exec_next_of_owns fun sp => howns i sp hd
    obtain ⟨hport, hcmdidx, w, hw, hresp⟩ := (completes_of_exec ht).answersOne
    refine ⟨t, w, (runDescriptor_of_ok hd s).trans ht, hresp, hcmdidx, hport, hw, ?_⟩
    rw [exec_rdy_iff ht hresp]
    simp only [Except.ok.injEq]

/-- Settles O9: the step takes the descriptor, and its failure is only answered. -/
theorem illegalDescriptorHasNoEffect : Obligations.IllegalDescriptorHasNoEffect := by
  intro s d e rest hport hd
  rw [step_of_port_cons hport, runEvent, runDescriptor_of_error hd, State.respond, word_illegalCommand]
  rfl

/-! ### An empty payload (30_encoding.md R59) -/

/-- On a READY parity an empty payload is read and written as it stands, and only `chain` is not kept. -/
theorem transformSpan_empty {f : Config.KS → Bytes8 → List Byte → List Byte} (hf : ∀ ks, f ks .zero [] = [])
    {par : Parity} (hready : s.ready par = true) (base : Nat) :
    transformSpan f par ⟨base, 0⟩ s = .next (s.loadChain.freeChain.respondOk false) := by
  obtain ⟨v, hv⟩ := (ready_iff s par).1 hready
  rw [transformSpan, hv]
  simp only [readSpan_zero, loadChain_chain, hf, writeSpan_nil]
  rfl

/-- Settles O20: `ENC` and `DEC` are one transformation, and both chaining functions take no bytes to no bytes. -/
theorem emptyPayloadChangesNoByte : Obligations.EmptyPayloadChangesNoByte := by
  intro par base i s hi
  obtain ⟨f, hf, hexec⟩ : ∃ f : Config.KS → Bytes8 → List Byte → List Byte,
      (∀ ks, f ks .zero [] = []) ∧ exec i s = transformSpan f par ⟨base, 0⟩ s := by
    rcases hi with rfl | rfl
    · exact ⟨chainEncFrom Config.cipher, fun _ => rfl, exec_enc _ _ _⟩
    · exact ⟨chainDecFrom Config.cipher, fun _ => rfl, exec_dec _ _ _⟩
  rw [hexec]
  constructor
  · intro hready
    exact ⟨_, _, transformSpan_empty hf hready base⟩
  · intro hready
    exact transformSpan_of_slot_none ((not_ready_iff s par).1 hready) f _

end Sys2Proof.Machine
end

section
/-! PROOFS. `Reduce` and `Install` (40_entropy_reducer.md R71, R73; 41_key_schedule.md R78): the laws of bytewise
AND, OR and NOT under a mask, from which the laws of `Reduce` follow without looking at single bits. -/

namespace Sys2Proof

/-! ### A byte vector under a mask -/

namespace Bytes8

variable (a b m : Bytes8)

theorem and_or_distrib_right : (a.or b).and m = (a.and m).or (b.and m) := by
  simp [Bytes8.and, Bytes8.or, zipWith, BitVec.and_or_distrib_right]

@[simp] theorem or_zero : a.or zero = a := by
  simp [Bytes8.or, zipWith, zero]

@[simp] theorem zero_or : zero.or a = a := by
  simp [Bytes8.or, zipWith, zero]

@[simp] theorem and_not_and : (a.and m.not).and m = zero := by
  simp [Bytes8.and, Bytes8.not, zipWith, map, zero, BitVec.and_assoc]

@[simp] theorem and_not_and_not : (a.and m.not).and m.not = a.and m.not := by
  simp [Bytes8.and, Bytes8.not, zipWith, map, BitVec.and_assoc]

/-- A vector is its bits outside a mask together with its bits inside it. -/
@[simp] theorem and_not_or_and : (a.and m.not).or (a.and m) = a := by
  simp [Bytes8.and, Bytes8.or, Bytes8.not, zipWith, map, ← BitVec.and_or_distrib_left, -BitVec.reduceAllOnes]

variable {a m} in
/-- A vector without bits outside a mask passes the mask. -/
theorem and_of_and_not_eq_zero (h : a.and m.not = zero) : a.and m = a :=
  calc a.and m = (a.and m.not).or (a.and m) := by rw [h, zero_or]
    _ = a := and_not_or_and a m

@[simp] theorem toList_and : (a.and b).toList = List.zipWith (· &&& ·) a.toList b.toList := rfl
@[simp] theorem toList_or : (a.or b).toList = List.zipWith (· ||| ·) a.toList b.toList := rfl
@[simp] theorem toList_not : a.not.toList = a.toList.map (~~~ ·) := rfl

end Bytes8

/-- In a well-formed pair the value lies inside the mask (R71). -/
theorem Cipher.Lawful.erVal_and_erMask {c : Cipher} (hc : c.Lawful) : c.erVal.and c.erMask = c.erVal :=
  Bytes8.and_of_and_not_eq_zero hc.erVal_in_mask

end Sys2Proof

namespace Sys2Proof.Machine

variable {c : Cipher} {k k' : Bytes8}

/-! ### The laws of `Reduce` (40_entropy_reducer.md R73) -/

/-- The constrained bits are fixed. -/
theorem reduce_and_erMask (hc : c.Lawful) (k : Bytes8) : (reduce c k).and c.erMask = c.erVal := by
  rw [reduce, Bytes8.and_or_distrib_right, Bytes8.and_not_and, Bytes8.zero_or, hc.erVal_and_erMask]

/-- The free bits pass. -/
theorem reduce_and_not_erMask (hc : c.Lawful) (k : Bytes8) :
    (reduce c k).and c.erMask.not = k.and c.erMask.not := by
  rw [reduce, Bytes8.and_or_distrib_right, Bytes8.and_not_and_not, hc.erVal_in_mask, Bytes8.or_zero]

/-- `Reduce` reads the free bits alone. -/
theorem reduce_congr (h : k.and c.erMask.not = k'.and c.erMask.not) : reduce c k = reduce c k' := by
  rw [reduce, h, reduce]

theorem reduce_reduce (hc : c.Lawful) (k : Bytes8) : reduce c (reduce c k) = reduce c k :=
  reduce_congr (reduce_and_not_erMask hc k)

theorem reduce_of_and_erMask (h : k.and c.erMask = c.erVal) : reduce c k = k := by
  rw [reduce, ← h, Bytes8.and_not_or_and]

theorem reduce_eq_self_iff (hc : c.Lawful) : reduce c k = k ↔ k.and c.erMask = c.erVal :=
  ⟨fun h => h ▸ reduce_and_erMask hc k, reduce_of_and_erMask⟩

/-! ### `Install` (41_key_schedule.md R78) -/

theorem install_normal (c : Cipher) (k : Bytes8) : install c .normal k = c.expand k := rfl

theorem install_reduced (c : Cipher) (k : Bytes8) : install c .reduced k = c.expand (reduce c k) := rfl

/-- Settles O39: what is installed in mode REDUCED depends on the control word through `Reduce` alone. -/
theorem reduceLaws : Obligations.ReduceLaws := by
  intro c hc k k'
  refine ⟨reduce_reduce hc k, reduce_and_erMask hc k, reduce_and_not_erMask hc k, ?_, reduce_eq_self_iff hc, ?_⟩
  · intro hfree
    rw [install_reduced, install_reduced, reduce_congr hfree]
  · intro hfixed
    rw [install_reduced, install_normal, reduce_of_and_erMask hfixed]

/-- The formula of R71 at byte `i`. -/
theorem reduce_toList_getElem? (c : Cipher) (k : Bytes8) (i : Nat) :
    (reduce c k).toList[i]? = k.toList[i]?.bind fun x => c.erMask.toList[i]?.bind fun m =>
      c.erVal.toList[i]?.map fun v => (x &&& ~~~m) ||| v := by
  rw [reduce, Bytes8.toList_or, Bytes8.toList_and, Bytes8.toList_not, List.getElem?_zipWith',
    List.getElem?_zipWith', List.getElem?_map]
  cases k.toList[i]? with
  | none => rfl
  | some x => cases c.erMask.toList[i]? <;> rfl

/-- Settles O40: `Reduce` is three bytewise operations, so each of its bytes comes from the same byte of the vectors. -/
theorem installationValue : Obligations.InstallationValue := by
  intro c k
  exact ⟨install_normal c k, install_reduced c k, fun i _ => reduce_toList_getElem? c k i⟩

end Sys2Proof.Machine
end

section
/-! PROOFS. What changes a slot over a step (41_key_schedule.md R79; 10_state.md R12, R13, R23, R24). -/

namespace Sys2Proof.Machine

variable {s t : State}

/-- A slot after a descriptor is as before, or what the descriptor's installation writes there from its key span. -/
theorem runDescriptor_slot_cases {d : Descriptor} (h : runDescriptor d s = .next t) (p : Parity) :
    t.slot p = s.slot p ∨ ∃ i mode sp k, decode d = .ok i ∧ installsIn p mode sp i ∧ sp.len = 8 ∧
      s.holds sp k.toList ∧ t.slot p = some (slotFor Config.cipher mode k) := by
  rcases runDescriptor_next h with ⟨-, rfl⟩ | ⟨i, hdec, hi⟩
  · exact .inl (respond_slot s p _ _)
  · refine (hi.slot_cases p).imp_right fun ⟨mode, sp, k, hinst, hlen, hkey, hslot⟩ => ?_
    exact ⟨i, mode, sp, k, hdec, hinst, hlen, holds_iff_readSpan.2 (hlen.symm ▸ hkey), hslot⟩

/-- Settles O34: idling and a store keep every slot, a reset removes it, and a descriptor that changes it installs. -/
theorem slotChangesOnlyByInstallationOrReset : Obligations.SlotChangesOnlyByInstallationOrReset := by
  intro s t p h hne
  rcases step_next h with rfl | ⟨rest, addr, bs, -, rfl⟩ | ⟨rest, hport, rfl⟩ | ⟨rest, d, hport, hd⟩
  · exact absurd rfl hne
  · exact absurd (by simp) hne
  · exact .inl ⟨⟨rest, hport⟩, hostReset_slot _ p⟩
  · rcases runDescriptor_slot_cases hd p with hsame | ⟨i, mode, sp, k, hdec, hinst, hlen, hkey, hslot⟩
    · exact absurd (hsame.trans (setPort_slot s p rest)) hne
    · exact .inr ⟨d, rest, i, mode, sp, k, hport, hdec, hinst, hlen, hkey, hslot⟩

end Sys2Proof.Machine
end

section
/-! PROOFS. `ChainEnc` and `ChainDec` (43_chaining_stream.md R90 to R98): the bytes of a payload are its split's blocks
and residue, so each rule of chaining is a fact about the two loops over blocks and the one XOR of the residue. -/

namespace Sys2Proof.Machine

/-! ### A payload's bytes by its split (R90) -/

/-- Block `i` of a payload is full block `i` of its split, and zero where there is none. -/
theorem blockAt_eq (l : List Byte) (i : Nat) : blockAt l i = (splitPayload l).1[i]?.getD .zero := by
  induction l using payload_induction generalizing i with
  | short l h =>
    have hlen : ((l.drop (8 * i)).take 8).length ≠ 8 := by simp; omega
    rw [splitPayload_short h, blockAt, blockOf, Bytes8.ofList?_eq_none hlen]
    rfl
  | block b l ih =>
    rw [splitPayload_block]
    cases i with
    | zero => rfl
    | succ i => exact ih i

/-- What the chaining value is before block `i`: zero before the first (R91), then the block before. -/
theorem getElem?_zero_cons_blocks (l : List Byte) (i : Nat) :
    (Bytes8.zero :: (splitPayload l).1)[i]?.getD .zero = if i = 0 then .zero else blockAt l (i - 1) := by
  cases i with
  | zero => rfl
  | succ i => exact (blockAt_eq l i).symm

theorem drop_eq_residue (l : List Byte) : l.drop (8 * (l.length / 8)) = (splitPayload l).2 := by
  calc l.drop (8 * (l.length / 8))
      = (joinBlocks (splitPayload l).1 ++ (splitPayload l).2).drop (8 * (splitPayload l).1.length) := by
        rw [join_splitPayload, splitPayload_blocks_length]
    _ = (splitPayload l).2 := List.drop_left' (joinBlocks_length _)

theorem take_eq_joinBlocks {l : List Byte} {m : Nat} (h : 8 * m ≤ l.length) :
    l.take (8 * m) = joinBlocks ((splitPayload l).1.take m) := by
  have hlen : (joinBlocks ((splitPayload l).1.take m)).length = 8 * m := by
    rw [joinBlocks_length, List.length_take, splitPayload_blocks_length]; omega
  calc l.take (8 * m)
      = (joinBlocks ((splitPayload l).1.take m ++ (splitPayload l).1.drop m) ++ (splitPayload l).2).take (8 * m) := by
        rw [List.take_append_drop, join_splitPayload]
    _ = joinBlocks ((splitPayload l).1.take m) := by
        rw [joinBlocks_append, List.append_assoc, List.take_left' hlen]

theorem splitPayload_take {l : List Byte} {m : Nat} (h : 8 * m ≤ l.length) :
    splitPayload (l.take (8 * m)) = ((splitPayload l).1.take m, []) := by
  rw [take_eq_joinBlocks h, ← List.append_nil (joinBlocks _), splitPayload_join _ (by decide)]

section Chaining

variable (c : Cipher) (s : c.KS) (chain : Bytes8)

/-! ### The blocks (R91 to R93) -/

/-- Block `i` out is one block step (R92, R93) on block `i` in, from the scrambled block before it. -/
theorem blocksOut_getElem? (d : Direction) {bs : List Bytes8} {i : Nat} (hi : i < bs.length) :
    (blocksOut c s d chain bs)[i]?.getD .zero =
      (blockStep c s ((chain :: blocksScrambled c s d chain bs)[i]?.getD .zero) d (bs[i]?.getD .zero)).1 := by
  induction bs generalizing chain i with
  | nil => cases hi
  | cons b bs ih =>
    rw [blocksOut_cons, blocksScrambled_cons]
    cases i with
    | zero => rfl
    | succ i => exact ih _ (Nat.lt_of_succ_lt_succ hi)

theorem splitPayload_chainFrom_blocks (d : Direction) (l : List Byte) :
    (splitPayload (chainFrom c s d chain l)).1 = blocksOut c s d chain (splitPayload l).1 := by
  cases d
  · exact congrArg Prod.fst (splitPayload_chainEncFrom c s chain l)
  · exact congrArg Prod.fst (splitPayload_chainDecFrom c s chain l)

theorem blockAt_chainFrom (d : Direction) {l : List Byte} {i : Nat} (hi : i < l.length / 8) :
    blockAt (chainFrom c s d chain l) i =
      (blockStep c s ((chain :: blocksScrambled c s d chain (splitPayload l).1)[i]?.getD .zero) d (blockAt l i)).1 := by
  rw [blockAt_eq, blockAt_eq, splitPayload_chainFrom_blocks]
  exact blocksOut_getElem? c s chain d (by rwa [splitPayload_blocks_length])

/-- Settles O41: when scrambling, the blocks chained are the output's own. -/
theorem scrambledBlocks : Obligations.ScrambledBlocks := by
  intro c s l i hi
  rw [← getElem?_zero_cons_blocks, chainEnc, splitPayload_chainEncFrom]
  exact blockAt_chainFrom c s .zero .scramble hi

/-- Settles O42: when descrambling, the blocks chained are the input's own. -/
theorem descrambledBlocks : Obligations.DescrambledBlocks := by
  intro c s l i hi
  rw [← getElem?_zero_cons_blocks]
  exact blockAt_chainFrom c s .zero .descramble hi

/-! ### The residue (R94, R95) -/

/-- The seed from a scrambled payload's blocks is its last full block, or `BlockEnc` of the chaining value (R94). -/
theorem seed_splitPayload (l : List Byte) :
    seed c s chain (splitPayload l).1 =
      if l.length / 8 = 0 then c.blockEnc s chain else blockAt l (l.length / 8 - 1) := by
  rw [blockAt_eq, ← splitPayload_blocks_length]
  obtain h | ⟨ys, y, h⟩ := List.eq_nil_or_concat' (splitPayload l).1
  · rw [h, seed_nil]; rfl
  · rw [h, seed_append]; simp

theorem drop_chainEncFrom (l : List Byte) :
    (chainEncFrom c s chain l).drop (8 * (l.length / 8)) =
      residueOut c s chain (encBlocks c s chain (splitPayload l).1) (splitPayload l).2 := by
  simpa only [chainEncFrom_length, splitPayload_chainEncFrom] using drop_eq_residue (chainEncFrom c s chain l)

theorem drop_chainDecFrom (l : List Byte) :
    (chainDecFrom c s chain l).drop (8 * (l.length / 8)) =
      residueOut c s chain (splitPayload l).1 (splitPayload l).2 := by
  simpa only [chainDecFrom_length, splitPayload_chainDecFrom] using drop_eq_residue (chainDecFrom c s chain l)

/-- Settles O43: the seed comes from the scrambled payload, the output of `ChainEnc` and the input of `ChainDec`. -/
theorem residueRule : Obligations.ResidueRule := by
  intro c s l
  have hseed : seed c s .zero (encBlocks c s .zero (splitPayload l).1) =
      if l.length / 8 = 0 then c.blockEnc s .zero else blockAt (chainEncFrom c s .zero l) (l.length / 8 - 1) := by
    simpa only [splitPayload_chainEncFrom, chainEncFrom_length] using
      seed_splitPayload c s .zero (chainEncFrom c s .zero l)
  constructor
  · rw [chainEnc, ← hseed, drop_chainEncFrom, residueOut_eq, drop_eq_residue]
  · rw [chainDec, drop_chainDecFrom, residueOut_eq, seed_splitPayload, drop_eq_residue]

/-- Settles O44: the two loops keep the number of blocks and the residue its length. -/
theorem chainingPreservesLength : Obligations.ChainingPreservesLength :=
  fun c s l => ⟨chainEncFrom_length c s .zero l, chainDecFrom_length c s .zero l⟩

/-! ### Short payloads (R94, R98) -/

theorem chainEncFrom_short {l : List Byte} (h : l.length < 8) :
    chainEncFrom c s chain l = xorBytes l (c.blockEnc s chain).toList := by
  rw [chainEncFrom, splitPayload_short h, residueOut_eq]; rfl

theorem chainDecFrom_short {l : List Byte} (h : l.length < 8) :
    chainDecFrom c s chain l = xorBytes l (c.blockEnc s chain).toList := by
  rw [chainDecFrom, splitPayload_short h, residueOut_eq]; rfl

/-- Settles O48: a short payload is all residue, and the residue rule has no direction. -/
theorem shortPayloadsShareOneKeystream : Obligations.ShortPayloadsShareOneKeystream := fun c s _ h =>
  ⟨chainEncFrom_short c s .zero h, (chainDecFrom_short c s .zero h).trans (chainEncFrom_short c s .zero h).symm⟩

/-! ### Prefixes (R98) -/

theorem encBlocks_take (bs : List Bytes8) (m : Nat) :
    (encBlocks c s chain bs).take m = encBlocks c s chain (bs.take m) := by
  induction bs generalizing chain m with
  | nil => simp [encBlocks]
  | cons b bs ih =>
    cases m with
    | zero => rfl
    | succ m => simp only [encBlocks, List.take_succ_cons, ih]

/-- Scrambling full blocks at the front of a payload is the front of scrambling it. -/
theorem chainEncFrom_take {l : List Byte} {m : Nat} (h : 8 * m ≤ l.length) :
    (chainEncFrom c s chain l).take (8 * m) = chainEncFrom c s chain (l.take (8 * m)) := by
  rw [take_eq_joinBlocks ((chainEncFrom_length c s chain l).symm ▸ h), splitPayload_chainEncFrom, encBlocks_take,
    chainEncFrom, splitPayload_take h, residueOut, List.append_nil]

/-- Settles O46: each output's first blocks are the scrambling of the input's first blocks, which agree. -/
theorem scramblingIsPrefixStable : Obligations.ScramblingIsPrefixStable := by
  intro c s m l l' h h' heq
  rw [chainEnc, chainEnc, chainEncFrom_take c s .zero h, chainEncFrom_take c s .zero h', heq]

/-! ### Undoing (R97, R98) -/

variable {c s}

theorem decBlocks_encBlocks (hs : ∀ b, c.blockDec s (c.blockEnc s b) = b) (bs : List Bytes8) :
    decBlocks c s chain (encBlocks c s chain bs) = bs := by
  induction bs generalizing chain with
  | nil => rfl
  | cons b bs ih => rw [encBlocks, decBlocks, hs, Bytes8.xor_xor_cancel, ih]

theorem encBlocks_decBlocks (hs : ∀ b, c.blockEnc s (c.blockDec s b) = b) (ys : List Bytes8) :
    encBlocks c s chain (decBlocks c s chain ys) = ys := by
  induction ys generalizing chain with
  | nil => rfl
  | cons y ys ih => rw [decBlocks, encBlocks, Bytes8.xor_xor_cancel, hs, ih]

/-- The residue step under an equal seed undoes the residue step, whatever the cipher (R95). -/
theorem residueOut_residueOut {c' : Cipher} {s' : c'.KS} {chain' : Bytes8} {ys : List Bytes8} {t : List Byte}
    (hseed : seed c' s' chain' ys = seed c s chain ys) (ht : t.length < 8) :
    residueOut c' s' chain' ys (residueOut c s chain ys t) = t := by
  rw [residueOut_eq, residueOut_eq, hseed, xorBytes_xorBytes_cancel (Nat.le_of_lt ht)]

/-- `ChainDec` undoes `ChainEnc` under every schedule whose `BlockDec` undoes its `BlockEnc`. -/
theorem chainDecFrom_chainEncFrom (hs : ∀ b, c.blockDec s (c.blockEnc s b) = b) (l : List Byte) :
    chainDecFrom c s chain (chainEncFrom c s chain l) = l := by
  rw [chainDecFrom, splitPayload_chainEncFrom, decBlocks_encBlocks chain hs,
    residueOut_residueOut chain rfl (splitPayload_residue_lt l), join_splitPayload]

/-- `ChainEnc` undoes `ChainDec` under every schedule whose `BlockEnc` undoes its `BlockDec`. -/
theorem chainEncFrom_chainDecFrom (hs : ∀ b, c.blockEnc s (c.blockDec s b) = b) (l : List Byte) :
    chainEncFrom c s chain (chainDecFrom c s chain l) = l := by
  rw [chainEncFrom, splitPayload_chainDecFrom, encBlocks_decBlocks chain hs,
    residueOut_residueOut chain rfl (splitPayload_residue_lt l), join_splitPayload]

/-- Settles O45: an expanded schedule has both inverse laws (R81). -/
theorem chainingRoundTrip : Obligations.ChainingRoundTrip := fun _ hc k l =>
  ⟨chainDecFrom_chainEncFrom .zero (hc.dec_enc k) l, chainEncFrom_chainDecFrom .zero (hc.enc_dec k) l⟩

/-- With a full block the seed depends on no cipher, schedule or chaining value (R94). -/
theorem seed_eq_seed_of_ne_nil {c' : Cipher} (s' : c'.KS) (chain' : Bytes8) {ys : List Bytes8} (h : ys ≠ []) :
    seed c' s' chain' ys = seed c s chain ys := by
  obtain ⟨zs, y, rfl⟩ := (List.eq_nil_or_concat' ys).resolve_left h
  rw [seed_append, seed_append]

/-- Settles O47: both residue steps take the last scrambled block as their seed. -/
theorem residueNeedsNoKey : Obligations.ResidueNeedsNoKey := by
  intro c c' s s' l h
  have hblocks : encBlocks c s .zero (splitPayload l).1 ≠ [] := by
    rw [← List.length_pos_iff, encBlocks_length, splitPayload_blocks_length]; omega
  have hdrop := drop_chainDecFrom c' s' .zero (chainEncFrom c s .zero l)
  rw [chainEncFrom_length, splitPayload_chainEncFrom] at hdrop
  rw [chainDec, chainEnc, hdrop, residueOut_residueOut _ (seed_eq_seed_of_ne_nil _ s' .zero hblocks)
    (splitPayload_residue_lt l), drop_eq_residue]

end Chaining

end Sys2Proof.Machine
end

section
/-! PROOFS. The five commands (44_engine_commands.md R100 to R110): what each answers where its span holds given bytes,
the table of a parity, the isolation of the two slots, and that `DEC` and `ENC` undo each other in memory. -/

namespace Sys2Proof.Machine

variable {s t : State} {sp : Span}

/-! ### Responses as record updates -/

theorem raise_invalidKeyLength (s : State) : raise .invalidKeyLength s =
    .next { s with resp := s.resp ++ [0x00000001], cmdidx := s.cmdidx + 1 } := by
  rw [raise_eq, State.respond, word_invalidKeyLength]

theorem raise_engineNotInitialized (s : State) : raise .engineNotInitialized s =
    .next { s with resp := s.resp ++ [0x00000002], cmdidx := s.cmdidx + 1 } := by
  rw [raise_eq, State.respond, word_engineNotInitialized]

theorem respondOk_eq_update (s : State) (rdy : Bool) : s.respondOk rdy =
    { s with resp := s.resp ++ [if rdy = true then 0x00000100 else 0x00000000], cmdidx := s.cmdidx + 1 } := by
  cases rdy
  · rw [respondOk_eq, State.respond, word_ok]; rfl
  · rw [respondOk_eq, State.respond, word_ready]; rfl

/-! ### The step and the query (R100, R105) -/

/-- Settles O7: the step takes the event, and a descriptor that decodes runs its command. -/
theorem stepRunsTheDecodedCommand : Obligations.StepRunsTheDecodedCommand := by
  intro s d rest i hport hd
  rw [step_of_port_cons hport, runEvent, runDescriptor_of_ok hd, State.setPort]

/-- Settles O19: a query only answers, with the ready bit. -/
theorem qryReportsReadiness : Obligations.QryReportsReadiness := by
  intro par s
  rw [exec, execQry_eq, respondOk_eq_update]

/-! ### Key installation (R101, R102, R110) -/

variable {put : Bytes8 → State → State} {k : Bytes8}

theorem installKey_of_readKey (hlen : sp.len = 8) (hkey : s.mem.readKey sp.base = some k) :
    installKey sp put s = .next ((put k s).respondOk false) := by
  rw [installKey, if_neg (not_not.2 hlen), hkey]

/-- A key span that holds eight bytes is read as the control word they spell (20_memory.md R32). -/
theorem readKey_of_holds (hlen : sp.len = 8) (hk : s.holds sp k.toList) : s.mem.readKey sp.base = some k := by
  rw [holds_iff_readSpan, hlen] at hk
  exact readKey_eq_some.2 hk

/-- An installation that answers raised on its length, or read a control word and wrote it. -/
theorem installKey_next (h : installKey sp put s = .next t) :
    (sp.len ≠ 8 ∧ t = s.respond Failure.invalidKeyLength.code false) ∨
    ∃ k, sp.len = 8 ∧ s.mem.readKey sp.base = some k ∧ t = (put k s).respondOk false := by
  rcases installKey_cases sp put s with ⟨hlen, e⟩ | ⟨-, -, e⟩ | ⟨k, hlen, hkey, e⟩ <;> cases h.symm.trans e
  · exact .inl ⟨hlen, rfl⟩
  · exact .inr ⟨k, hlen, hkey, rfl⟩

/-- Settles O15: both slots are written with the control word the span holds. -/
theorem initInstallsBothSlots : Obligations.InitInstallsBothSlots := by
  intro mode sp s
  constructor
  · intro hlen
    rw [exec_init, installKey_of_len_ne hlen, raise_invalidKeyLength]
  · intro k hlen hk
    rw [exec_init, installKey_of_readKey hlen (readKey_of_holds hlen hk), respondOk_eq_update]
    rfl

/-- Settles O16: one slot is written with the control word the span holds. -/
theorem initpInstallsOneSlot : Obligations.InitpInstallsOneSlot := by
  intro par mode sp s
  constructor
  · intro hlen
    rw [exec_initp, installKey_of_len_ne hlen, raise_invalidKeyLength]
  · intro k hlen hk
    rw [exec_initp, installKey_of_readKey hlen (readKey_of_holds hlen hk), respondOk_eq_update]
    cases par <;> rfl

/-- Settles O21: an installation moves no memory, so the second `INITP` reads the control word `INIT` read. -/
theorem initIsTwoInitp : Obligations.InitIsTwoInitp := by
  intro mode sp s
  constructor
  · intro hlen
    refine ⟨(initInstallsBothSlots mode sp s).1 hlen, _, (initpInstallsOneSlot .even mode sp s).1 hlen, ?_⟩
    rw [exec_initp, installKey_of_len_ne hlen, raise_invalidKeyLength, List.append_assoc]
    rfl
  · intro t hlen h
    rw [exec_init] at h
    rcases installKey_next h with ⟨hne, -⟩ | ⟨k, -, hkey, rfl⟩
    · exact absurd hlen hne
    · refine ⟨by simp, (s.setSlot .even (slotFor Config.cipher mode k)).respondOk false, ?_, rfl, rfl, ?_⟩
      · rw [exec_initp, installKey_of_readKey hlen hkey]
      · rw [exec_initp, installKey_of_readKey (k := k) hlen (by simpa using hkey), setSlot_respondOk,
          respondOk_eq_update, respondOk_eq_update]
        simp

/-! ### Scrambling and descrambling (R103, R104) -/

variable {f g : Config.KS → Bytes8 → List Byte → List Byte} {par : Parity} {v : Slot Config.KS} {bs : List Byte}

theorem transformSpan_of_readSpan (hv : s.slot par = some v) (hread : s.mem.readSpan sp.base sp.len = some bs) :
    transformSpan f par sp s = .next
      (((s.loadChain.setMem (s.mem.writeSpan sp.base (f v.ks .zero bs))).freeChain).respondOk false) := by
  rw [transformSpan, hv]
  simp only [hread, loadChain_chain]

/-- What a transformation that keeps the byte count leaves where its span holds `bs`: the span's bytes alone are
replaced, and besides them only `chain` and its counter move. -/
theorem transformSpan_replaces_span (hf : ∀ ks bs, (f ks .zero bs).length = bs.length) (hwf : sp.WellFormed)
    (hv : s.slot par = some v) (hbs : s.holds sp bs) :
    ∃ m ch n,
      transformSpan f par sp s = .next
        { s with mem := m, chain := ch, fresh := n, resp := s.resp ++ [0x00000000], cmdidx := s.cmdidx + 1 } ∧
      (∀ i, i < sp.len → m.read (spanAddr sp.base i) = (f v.ks .zero bs)[i]?) ∧
      ∀ a, ¬ spanCovers sp a → m.read a = s.mem.read a := by
  have hlen : (f v.ks .zero bs).length = sp.len := (hf v.ks bs).trans hbs.1
  refine ⟨s.mem.writeSpan sp.base (f v.ks .zero bs), Config.freeChain s.fresh, s.fresh + 1,
    ?_, fun i hi => ?_, fun a hout => ?_⟩
  · rw [transformSpan_of_readSpan hv (holds_iff_readSpan.1 hbs), respondOk_eq_update]
    rfl
  · exact read_writeSpan_inside _ _ _ (hlen ▸ Nat.le_of_lt hwf.2) (hlen ▸ hi)
  · exact read_writeSpan_outside _ _ _ fun i hi e => hout ⟨i, hlen ▸ hi, e⟩

theorem transformSpan_of_not_ready (h : s.ready par = false) : transformSpan f par sp s =
    .next { s with resp := s.resp ++ [0x00000002], cmdidx := s.cmdidx + 1 } := by
  rw [transformSpan_of_slot_none ((not_ready_iff s par).1 h), raise_engineNotInitialized]

/-- Settles O17: `ENC` is the transformation by `ChainEnc`, which keeps the byte count. -/
theorem encScramblesTheSpan : Obligations.EncScramblesTheSpan := by
  intro par sp s
  rw [exec_enc]
  exact ⟨transformSpan_of_not_ready, fun v bs => transformSpan_replaces_span fun ks => chainEncFrom_length _ ks _⟩

/-- Settles O18: `DEC` is the transformation by `ChainDec`, which keeps the byte count. -/
theorem decDescramblesTheSpan : Obligations.DecDescramblesTheSpan := by
  intro par sp s
  rw [exec_dec]
  exact ⟨transformSpan_of_not_ready, fun v bs => transformSpan_replaces_span fun ks => chainDecFrom_length _ ks _⟩

/-! ### `DEC` and `ENC` undo each other (R104, 70_reset_and_hazards.md R148) -/

/-- Writing back what a span held, after any write of as many bytes, restores memory. -/
theorem writeSpan_writeSpan_of_readSpan {m : Memory} {base n : Nat} {bs out : List Byte} (hwf : m.wf)
    (hread : m.readSpan base n = some bs) (hn : n ≤ 2 ^ Config.abits) (hout : out.length = n) :
    (m.writeSpan base out).writeSpan base bs = m := by
  obtain ⟨hlen, hbs⟩ := readSpan_eq_some.1 hread
  refine memory_ext (writeSpan_wf base bs (writeSpan_wf base out hwf)).1 hwf.1 fun a => ?_
  by_cases ha : ∃ i, i < n ∧ spanAddr base i = a
  · obtain ⟨i, hi, rfl⟩ := ha
    rw [read_writeSpan_inside _ _ _ (hlen ▸ hn) (hlen ▸ hi), hbs i hi]
  · rw [read_writeSpan_outside _ _ _ fun i hi e => ha ⟨i, hlen ▸ hi, e⟩,
      read_writeSpan_outside _ _ _ fun i hi e => ha ⟨i, hout ▸ hi, e⟩]

/-- A transformation `g` that undoes `f` under the parity's schedule restores memory and slots after it. -/
theorem transformSpan_undoes (hf : ∀ ks bs, (f ks .zero bs).length = bs.length)
    (hgf : ∀ v, s.slot par = some v → ∀ bs, g v.ks .zero (f v.ks .zero bs) = bs) (hmem : s.mem.wf)
    (hwf : sp.WellFormed) (hready : s.ready par = true) (h : transformSpan f par sp s = .next t) :
    ∃ u, transformSpan g par sp t = .next u ∧ u.mem = s.mem ∧ u.engine = s.engine := by
  rcases transformSpan_cases f par sp s with ⟨hnone, -⟩ | ⟨v, -, -, e⟩ | ⟨v, bs, hv, hread, e⟩
  · rw [ready_eq, hnone] at hready
    cases hready
  · cases h.symm.trans e
  · cases h.symm.trans e
    have hlen : (f v.ks .zero bs).length = sp.len := (hf v.ks bs).trans (readSpan_length hread)
    refine ⟨_, transformSpan_of_readSpan (v := v) (by simpa using hv)
      (holds_iff_readSpan.1 (holds_of_mem_eq_writeSpan (m := s.mem) (by simp) hlen hwf)), ?_, by simp⟩
    simpa [hgf v hv] using writeSpan_writeSpan_of_readSpan hmem hread (Nat.le_of_lt hwf.2) hlen

/-- What is installed is an expanded control word, reduced or not (41_key_schedule.md R78). -/
theorem install_eq_expand (c : Cipher) (mode : Mode) (k : Bytes8) : ∃ k', install c mode k = c.expand k' := by
  cases mode
  · exact ⟨k, rfl⟩
  · exact ⟨reduce c k, rfl⟩

/-- Under the invariant a slot's schedule is in the range of `Expand`, where the cipher's inverse laws hold (R81). -/
theorem State.Inv.slot_ks_eq_expand (h : s.Inv) (hv : s.slot par = some v) : ∃ k, v.ks = Config.cipher.expand k := by
  obtain ⟨mode, hks⟩ := h.slots par v hv
  exact hks ▸ install_eq_expand Config.cipher mode v.cw

/-- Settles O49: `ENC` and `DEC` are transformations by inverse functions under an installed schedule. -/
theorem decUndoesEncInMemory : Obligations.DecUndoesEncInMemory := by
  intro par sp s t hinv hwf hready
  constructor
  · refine transformSpan_undoes (fun ks => chainEncFrom_length _ ks _) (fun v hv bs => ?_) hinv.mem_wf hwf hready
    obtain ⟨k, hk⟩ := hinv.slot_ks_eq_expand hv
    exact hk ▸ chainDecFrom_chainEncFrom .zero (Config.cipher_lawful.dec_enc k) bs
  · refine transformSpan_undoes (fun ks => chainDecFrom_length _ ks _) (fun v hv bs => ?_) hinv.mem_wf hwf hready
    obtain ⟨k, hk⟩ := hinv.slot_ks_eq_expand hv
    exact hk ▸ chainEncFrom_chainDecFrom .zero (Config.cipher_lawful.enc_dec k) bs

/-! ### The two parities (R103 to R106) -/

/-- A transformation reads its own slot and memory alone, so two states that agree on these answer alike. -/
theorem transformSpan_isolated {s' : State} (hslot : s.slot par = t.slot par) (hmem : s.mem = t.mem)
    (hresp : s.resp = t.resp) (h : transformSpan f par sp s = .next s') :
    ∃ t', transformSpan f par sp t = .next t' ∧ t'.mem = s'.mem ∧ t'.resp = s'.resp ∧ ∀ p, t'.slot p = t.slot p := by
  rcases transformSpan_cases f par sp s with ⟨hnone, e⟩ | ⟨v, -, -, e⟩ | ⟨v, bs, hv, hread, e⟩ <;> cases h.symm.trans e
  · exact ⟨_, transformSpan_of_slot_none (hslot ▸ hnone) f sp, by simp [hmem], by simp [hresp], by simp⟩
  · exact ⟨_, transformSpan_of_readSpan (hslot ▸ hv) (hmem ▸ hread), by simp [hmem], by simp [hresp], by simp⟩

/-- Settles O38: a transformation and a query read no slot but their own, and write none. -/
theorem paritiesAreIsolated : Obligations.ParitiesAreIsolated := by
  intro par sp i s t s' hi hslot hmem hresp h
  rcases hi with rfl | rfl | rfl
  · exact transformSpan_isolated hslot hmem hresp h
  · exact transformSpan_isolated hslot hmem hresp h
  · cases h
    exact ⟨_, execQry_eq par t, hmem.symm, by simp [hresp, ready_eq, hslot], by simp⟩

/-- The rows of an installation in a parity's table, for one that writes the parity's slot. -/
theorem installKey_row {p : Parity} (hslot : ∀ k, ((put k s).slot p).isSome = true)
    (hresp : ∀ k, (put k s).resp = s.resp) (h : installKey sp put s = .next t) :
    if sp.len = 8 then t.ready p = true ∧ t.resp = s.resp ++ [0x00000000]
    else t.slot p = s.slot p ∧ t.resp = s.resp ++ [0x00000001] := by
  rcases installKey_next h with ⟨hlen, rfl⟩ | ⟨k, hlen, -, rfl⟩
  · rw [if_neg hlen]
    simp
  · rw [if_pos hlen]
    simp [ready_eq, hslot, hresp]

/-- The row of a transformation in a parity's table. -/
theorem transformSpan_row {p : Parity} (h : transformSpan f par sp s = .next t) :
    t.slot p = s.slot p ∧ (par = p → t.resp = s.resp ++ [if s.ready p = true then 0x00000000 else 0x00000002]) := by
  rcases transformSpan_cases f par sp s with ⟨hv, e⟩ | ⟨v, -, -, e⟩ | ⟨v, bs, hv, -, e⟩ <;> cases h.symm.trans e
  · exact ⟨by simp, fun hp => by simp [← hp, ready_eq, hv]⟩
  · exact ⟨by simp, fun hp => by simp [← hp, ready_eq, hv]⟩

/-- Settles O30: the table has one row per kind of descriptor; installing the other parity keeps the slot. -/
theorem parityStateMachine : Obligations.ParityStateMachine := by
  intro p d s t h
  cases hd : decode d with
  | error e =>
    rw [runDescriptor_of_error hd] at h
    cases h
    simp
  | ok i =>
    rw [runDescriptor_of_ok hd] at h
    cases i with
    | init mode sp =>
      rw [exec_init] at h
      exact installKey_row (fun k => by cases p <;> rfl) (fun k => by simp) h
    | initp q mode sp =>
      by_cases hq : q = p
      · subst hq
        rw [exec_initp] at h
        simpa using installKey_row (p := q) (fun k => by simp) (fun k => by simp) h
      · dsimp only
        rw [if_pos hq]
        exact (registerFrame _ s t h).1 p (by simp [installsIn, hq])
    | enc q sp => exact transformSpan_row h
    | dec q sp => exact transformSpan_row h
    | qry q =>
      cases h
      refine ⟨by simp, ?_⟩
      rintro rfl
      rw [respondOk_eq_update]

end Sys2Proof.Machine
end

section
/-! PROOFS. The exceptions (60_exceptions.md R121, R122, R130, R131): the one word each descriptor is answered with is
a function of what it decodes to and of the ready bits, so each failure has the cause its rule names, and key
material reaches no response. -/

namespace Sys2Proof.Machine

variable {s t : State} {i : Instr} {d : Descriptor}

/-! ### The response word (44_engine_commands.md R100 to R106) -/

/-- The word a descriptor with this decoding is answered with (30_encoding.md R58, R61). -/
def answerWord (s : State) : Except Illegal Instr → BitVec 32
  | .error _ => 0x0000000F
  | .ok (.init _ sp) => if sp.len = 8 then 0x00000000 else 0x00000001
  | .ok (.initp _ _ sp) => if sp.len = 8 then 0x00000000 else 0x00000001
  | .ok (.enc p _) => if s.ready p = true then 0x00000000 else 0x00000002
  | .ok (.dec p _) => if s.ready p = true then 0x00000000 else 0x00000002
  | .ok (.qry p) => if s.ready p = true then 0x00000100 else 0x00000000

/-- The row of an installation of `p` in that parity's table, for a command. -/
theorem exec_installsIn_row {p : Parity} {mode : Mode} {sp : Span} (hi : installsIn p mode sp i)
    (h : exec i s = .next t) :
    if sp.len = 8 then t.ready p = true ∧ t.resp = s.resp ++ [0x00000000]
    else t.slot p = s.slot p ∧ t.resp = s.resp ++ [0x00000001] := by
  rcases hi with rfl | rfl
  · rw [exec_init] at h
    exact installKey_row (fun k => by cases p <;> rfl) (fun k => by simp) h
  · rw [exec_initp] at h
    exact installKey_row (fun k => by simp) (fun k => by simp) h

/-- An installation is answered by its length alone. -/
theorem exec_installsIn_resp {p : Parity} {mode : Mode} {sp : Span} (hi : installsIn p mode sp i)
    (h : exec i s = .next t) : t.resp = s.resp ++ [if sp.len = 8 then 0x00000000 else 0x00000001] := by
  have hrow := exec_installsIn_row hi h
  split at hrow
  case isTrue hlen => rw [hrow.2, if_pos hlen]
  case isFalse hlen => rw [hrow.2, if_neg hlen]

theorem exec_resp (h : exec i s = .next t) : t.resp = s.resp ++ [answerWord s (.ok i)] := by
  cases i with
  | init mode sp => exact exec_installsIn_resp (p := .even) (.inl rfl) h
  | initp par mode sp => exact exec_installsIn_resp (.inr rfl) h
  | enc par sp => exact (transformSpan_row h).2 rfl
  | dec par sp => exact (transformSpan_row h).2 rfl
  | qry par =>
    rw [qryReportsReadiness par s] at h
    cases h
    rfl

theorem runDescriptor_resp (h : runDescriptor d s = .next t) : t.resp = s.resp ++ [answerWord s (decode d)] := by
  cases hd : decode d with
  | error e =>
    rw [runDescriptor_of_error hd] at h
    cases h
    rw [respond_resp, word_illegalCommand]
    rfl
  | ok i =>
    rw [runDescriptor_of_ok hd] at h
    exact exec_resp h

/-- A response word is appended exactly when it is the answer. -/
theorem resp_eq_append_iff (h : runDescriptor d s = .next t) (w : BitVec 32) :
    t.resp = s.resp ++ [w] ↔ answerWord s (decode d) = w := by
  rw [runDescriptor_resp h, List.append_cancel_left_eq, List.singleton_inj]

/-! ### The causes of the failures (R121, R122) -/

theorem answerWord_eq_invalidKeyLength_iff (s : State) (x : Except Illegal Instr) :
    answerWord s x = 0x00000001 ↔ ∃ i p mode sp, x = .ok i ∧ installsIn p mode sp i ∧ sp.len ≠ 8 := by
  match x with
  | .error _ => simp [answerWord]
  | .ok (.init mode sp) =>
    have hparity : Nonempty Parity := ⟨.even⟩
    simp [answerWord, installsIn]
  | .ok (.initp par mode sp) => simp [answerWord, installsIn]
  | .ok (.enc par sp) => simp [answerWord, installsIn, ite_eq_iff]
  | .ok (.dec par sp) => simp [answerWord, installsIn, ite_eq_iff]
  | .ok (.qry par) => simp [answerWord, installsIn, ite_eq_iff]

theorem answerWord_eq_engineNotInitialized_iff (s : State) (x : Except Illegal Instr) :
    answerWord s x = 0x00000002 ↔ ∃ p sp, (x = .ok (.enc p sp) ∨ x = .ok (.dec p sp)) ∧ s.ready p = false := by
  match x with
  | .error _ => simp [answerWord]
  | .ok (.init mode sp) => simp [answerWord, ite_eq_iff]
  | .ok (.initp par mode sp) => simp [answerWord, ite_eq_iff]
  | .ok (.enc par sp) => simp [answerWord]
  | .ok (.dec par sp) => simp [answerWord]
  | .ok (.qry par) => simp [answerWord, ite_eq_iff]

/-- Settles O23: the word is answered to an installation of another length alone, and a failure has no effect. -/
theorem invalidKeyLengthCause : Obligations.InvalidKeyLengthCause := by
  intro d s t h
  refine ⟨?_, fun hresp => (failedCommandHasNoEffect d s t _ h hresp (by decide) (by decide)).1⟩
  rw [resp_eq_append_iff h, answerWord_eq_invalidKeyLength_iff]

/-- Settles O24: the word is answered to a transformation under an absent slot alone, and a failure has no effect. -/
theorem engineNotInitializedCause : Obligations.EngineNotInitializedCause := by
  intro d s t h
  refine ⟨?_, fun hresp => (failedCommandHasNoEffect d s t _ h hresp (by decide) (by decide)).1⟩
  rw [resp_eq_append_iff h, answerWord_eq_engineNotInitialized_iff]

/-! ### Key material (R130) -/

/-- A command that answers a next state goes on to read only what the host owns (20_memory.md R38). -/
theorem owns_of_exec_next (h : exec i s = .next t) {sp : Span} (htouched : touchedSpan s i = some sp) : s.owns sp := by
  by_contra hnot
  cases h.symm.trans (((refusedExactlyOverUnownedSpans i s).1 .spanNotOwned).2 ⟨rfl, sp, htouched, hnot⟩)

/-- After a command a parity is READY exactly when it was before or the command installs it (R106). -/
theorem exec_ready_iff (h : exec i s = .next t) (p : Parity) :
    t.ready p = true ↔ s.ready p = true ∨ ∃ mode sp, installsIn p mode sp i ∧ sp.len = 8 := by
  have hc := completes_of_exec h
  constructor
  · intro ht
    rcases hc.slot_cases p with hslot | ⟨mode, sp, k, hinst, hlen, -, -⟩
    · exact .inl (by rwa [ready_eq, ← hslot])
    · exact .inr ⟨mode, sp, hinst, hlen⟩
  · rintro (hs | ⟨mode, sp, hinst, hlen⟩)
    · exact hc.ready hs
    · have hrow := exec_installsIn_row hinst h
      rw [if_pos hlen] at hrow
      exact hrow.1

namespace SameButKeys

theorem owns_iff (h : SameButKeys s t) (sp : Span) : s.owns sp ↔ t.owns sp := by
  rw [State.owns, State.owns, h.mem]

theorem touchedSpan_eq (h : SameButKeys s t) (i : Instr) : touchedSpan s i = touchedSpan t i := by
  cases i with
  | enc par sp => rw [touchedSpan, touchedSpan, h.ready]
  | dec par sp => rw [touchedSpan, touchedSpan, h.ready]
  | _ => rfl

theorem answerWord_eq (h : SameButKeys s t) (x : Except Illegal Instr) : answerWord s x = answerWord t x := by
  unfold answerWord
  simp only [h.ready]

end SameButKeys

/-- Settles O37: whether a command completes, its word and what is READY after it depend on ready bits and memory, and
a command without a payload keeps memory. -/
theorem keysReachNoResponse : Obligations.KeysReachNoResponse := by
  intro i s t s' hst hs
  have howns : ∀ sp, touchedSpan t i = some sp → t.owns sp := fun sp htouched =>
    (hst.owns_iff sp).1 (owns_of_exec_next hs ((hst.touchedSpan_eq i).trans htouched))
  obtain ⟨t', ht⟩ := exec_next_of_owns howns
  refine ⟨t', ht, ?_, fun p => ?_, fun hi => ?_⟩
  · rw [exec_resp ht, exec_resp hs, hst.resp, hst.answerWord_eq]
  · rw [Bool.eq_iff_iff, exec_ready_iff ht, exec_ready_iff hs, hst.ready]
  · rw [(memoryFrame i t t' ht).1 hi, (memoryFrame i s s' hs).1 hi, hst.mem]

/-! ### The idle engine (R131) -/

/-- Settles O10: no event waits, so the step takes none. -/
theorem idleEngineKeepsItsState : Obligations.IdleEngineKeepsItsState := fun _ => step_of_port_nil

end Sys2Proof.Machine
end

section
/-! PROOFS. The reset event (70_reset_and_hazards.md R140, R141). -/

namespace Sys2Proof.Machine

variable (s : State) (p : Parity)

theorem step_of_port_reset {s : State} {rest : List HostEvent} (h : s.port = .reset :: rest) :
    step s = .next (s.setPort rest).hostReset := step_of_port_cons h

@[simp] theorem hostReset_ready : s.hostReset.ready p = false := (not_ready_iff _ p).2 (hostReset_slot s p)

/-- After a reset event a query answers 0. -/
theorem exec_qry_hostReset : exec (.qry p) s.hostReset =
    .next { s.hostReset with resp := [0x00000000], cmdidx := 1 } := by
  rw [qryReportsReadiness, hostReset_ready]
  rfl

/-- Settles O11: a reset removes both slots, so a transformation fails for want of its slot and a query answers 0. -/
theorem resetEventUninitialises : Obligations.ResetEventUninitialises := by
  intro s rest hport
  refine ⟨_, step_of_port_reset hport, rfl, rfl, rfl, rfl, fun p => ?_⟩
  have hready := hostReset_ready (s.setPort rest) p
  exact ⟨hready, fun sp => (encScramblesTheSpan p sp _).1 hready, fun sp => (decDescramblesTheSpan p sp _).1 hready,
    exec_qry_hostReset _ p⟩

end Sys2Proof.Machine
end

section
/-! PROOFS. Words as the spec and the opcode table write them: what the decoder answers to some of the spec's own
(30_encoding.md section 6, 95_test_vectors.md section 3.6), and that a table word placed at the port runs next. -/

namespace Sys2Proof

/-- Settles O4: each of the five legal words is its command's encoding, which decodes to the command; each illegal
one has a field the decoder rejects. The names of the rejections are the model's (log entry 20). -/
theorem specWordsDecode : Obligations.SpecWordsDecode := by
  refine ⟨?init, ?initp, ?enc, ?dec, ?qry, ?reservedOpcode, ?reservedBits, ?unusedPar, ?unusedMode, ?unusedSpan⟩
  case init => exact decodeInvertsEncode (.init .reduced ⟨0x100, 8⟩) rfl
  case initp => exact decodeInvertsEncode (.initp .odd .normal ⟨0x108, 8⟩) rfl
  case enc => exact decodeInvertsEncode (.enc .odd ⟨0x200, 13⟩) rfl
  case dec => exact decodeInvertsEncode (.dec .odd ⟨0xFFFFFFFC, 8⟩) rfl
  case qry => exact decodeInvertsEncode (.qry .odd) rfl
  case reservedOpcode => decide
  case reservedBits => decide
  case unusedPar => decide
  case unusedMode => decide
  case unusedSpan => decide

/-- A table word reads as exactly the command its descriptor decodes to. -/
theorem decodeTableWord_eq_some_iff {nbits w : Nat} {i : Instr} :
    decodeTableWord nbits w = some i ↔ decode (tableDescriptor nbits w) = .ok i := by
  unfold decodeTableWord
  cases decode (tableDescriptor nbits w) <;> simp

end Sys2Proof

namespace Sys2Proof.Machine

theorem withFetchWord_port (s : State) (nbits w : Nat) :
    (s.withFetchWord nbits w).port = .descriptor (tableDescriptor nbits w) :: s.port := rfl

/-- Taking the placed word gives back the state it was placed in. -/
theorem setPort_withFetchWord (s : State) (nbits w : Nat) : (s.withFetchWord nbits w).setPort s.port = s := rfl

/-- Settles O8: the placed word's descriptor is the port's first event, and the step that takes it runs its command in
the state the word was placed in. -/
theorem placedWordRunsNext : Obligations.PlacedWordRunsNext := by
  intro s nbits w i h
  calc step (s.withFetchWord nbits w)
      = exec i ((s.withFetchWord nbits w).setPort s.port) :=
        stepRunsTheDecodedCommand _ _ _ i (withFetchWord_port s nbits w) (decodeTableWord_eq_some_iff.1 h)
    _ = exec i s := by rw [setPort_withFetchWord]

end Sys2Proof.Machine
end
